-- ==== Sys2Proof/Word.lean ====
section
/-! DEFINITION. The word types of the PPS-4 (spec/00_scope.md R5, R7, R11). Every value of this machine is an
unsigned bit vector of a stated width. The spec numbers bits from 1: its field `R(hi:lo)` is
`R.extractLsb' (lo - 1) (hi - lo + 1)`. -/

namespace Sys2Proof

/-- A 4-bit word: A, X, BU, BM, BL, DOA, a RAM word, a discrete group, the I/O data bus (R5, R20, R25 to R27). -/
abbrev Nibble := BitVec 4

/-- An 8-bit ROM word (R51). -/
abbrev RomWord := BitVec 8

/-- A 12-bit address: P, SA, SB, B, and the address of a ROM or a RAM word (R5, R50, R54). -/
abbrev Addr := BitVec 12

end Sys2Proof
end

