-- ==== Sys2Proof/Syntax.lean ====
section
/-! DEFINITION. The 50 instructions of spec/opcode_table.json, one constructor per row. An operand is the EFFECTIVE
value the instruction uses, never the stored bit pattern (spec/30_encoding.md R72, R73, R80). -/

namespace Sys2Proof

inductive Instr where
  -- Data address (spec/40_data_address.md)
  | lb (i : Nibble)        -- R100: table index
  | lbl (v : RomWord)      -- R101: the value for B(8:1)
  | sag                    -- R102
  | labl                   -- R103
  | incb                   -- R104
  | decb                   -- R105
  | xabl                   -- R106
  | lbua                   -- R107
  | lbmx                   -- R108
  | xbmx                   -- R109
  -- Data transfer (spec/41_data_transfer.md)
  | cys                    -- R120
  | ld (n : BitVec 3)      -- R121: XORed into B(7:5)
  | ex (n : BitVec 3)      -- R122
  | exd (n : BitVec 3)     -- R123
  | xs                     -- R124
  | xax                    -- R125
  | lax                    -- R126
  | lxa                    -- R127
  | ldi (n : Nibble)       -- R128: the value loaded
  -- Control transfer (spec/42_control_transfer.md)
  | rtn                    -- R141
  | rtnsk                  -- R142
  | t (field : BitVec 6)   -- R143: the new P(6:1)
  | tl (target : Addr)     -- R144
  | tml (target : Addr)    -- R145: 0x100 to 0x3FF
  | tm (k : BitVec 6)      -- R146: pointer index 0x10 to 0x3F
  -- Arithmetic and logic (spec/43_arithmetic_logic.md)
  | ad                     -- R161
  | adc                    -- R162
  | adcsk                  -- R163
  | adsk                   -- R164
  | and                    -- R165
  | or                     -- R166
  | eor                    -- R167
  | comp                   -- R168
  | adi (n : Nibble)       -- R169: the value added, neither 0 nor 10
  | dc                     -- R170
  -- Input and output (spec/44_input_output.md)
  | dia                    -- R181
  | dib                    -- R182
  | doa                    -- R183
  | iol (cmd : RomWord)    -- R184
  -- Skips and flip-flops (spec/45_skip_and_flags.md)
  | skz                    -- R191
  | skf2                   -- R192
  | skf1                   -- R193
  | skc                    -- R194
  | skbi (n : Nibble)      -- R195: as stored, not complemented
  | rf1                    -- R196
  | sf1                    -- R197
  | sf2                    -- R198
  | sc                     -- R199
  | rc                     -- R200
  | rf2                    -- R201
  deriving DecidableEq, Repr

/-- The class of an instruction for the string rule (R34, R35), and the values of LAST. -/
inductive StringClass where
  | none
  | ldi
  | lb
  deriving DecidableEq, Repr

/-- R34, R35: LDI is one class, LB and LBL together another, every other instruction none. -/
def Instr.stringClass : Instr → StringClass
  | .ldi _ => .ldi
  | .lb _ | .lbl _ => .lb
  | .sag | .labl | .incb | .decb | .xabl | .lbua | .lbmx | .xbmx
  | .cys | .ld _ | .ex _ | .exd _ | .xs | .xax | .lax | .lxa
  | .rtn | .rtnsk | .t _ | .tl _ | .tml _ | .tm _
  | .ad | .adc | .adcsk | .adsk | .and | .or | .eor | .comp | .adi _ | .dc
  | .dia | .dib | .doa | .iol _
  | .skz | .skf2 | .skf1 | .skc | .skbi _ | .rf1 | .sf1 | .sf2 | .sc | .rc | .rf2 => .none

end Sys2Proof
end

