-- ==== Sys2Proof/WellFormed.lean ====
section
/-! DEFINITION. Which instructions have an encoding (spec/30_encoding.md R78, R80): three operands have values that the
opcode map gives to another instruction; every other operand admits every value of its width. -/

namespace Sys2Proof

/-- R78, R169: 0 is CYS's word and 10 is DC's. -/
def adiEncodable (n : Nibble) : Bool := n != 0#4 && n != 10#4

/-- R78, R145: `P(12:9)` = 1, 2 or 3. -/
def tmlEncodable (target : Addr) : Bool := 0x100 ≤ target.toNat && target.toNat ≤ 0x3FF

/-- R78, R146: first words 0xC0 to 0xCF are LB's. -/
def tmEncodable (k : BitVec 6) : Bool := 0x10 ≤ k.toNat

def Instr.wf : Instr → Bool
  | .adi n => adiEncodable n
  | .tml target => tmlEncodable target
  | .tm k => tmEncodable k
  | .lb _ | .lbl _ | .sag | .labl | .incb | .decb | .xabl | .lbua | .lbmx | .xbmx
  | .cys | .ld _ | .ex _ | .exd _ | .xs | .xax | .lax | .lxa | .ldi _
  | .rtn | .rtnsk | .t _ | .tl _
  | .ad | .adc | .adcsk | .adsk | .and | .or | .eor | .comp | .dc
  | .dia | .dib | .doa | .iol _
  | .skz | .skf2 | .skf1 | .skc | .skbi _ | .rf1 | .sf1 | .sf2 | .sc | .rc | .rf2 => true

end Sys2Proof
end

