-- ==== Sys2Proof/Decode.lean ====
section
/-! DEFINITION. The decoder and the encoder (spec/30_encoding.md R70 to R81). Every one of the 256 first words is an
instruction and every second word is an operand (R79), so decoding rejects only a list of words that ends too soon. -/

namespace Sys2Proof

/-- The field `w(hi:lo)` of a ROM word, `n` bits from the 1-based bit `lo` (R7). -/
def romField (w : RomWord) (lo n : Nat) : BitVec n := w.extractLsb' (lo - 1) n

/-- R70: the first words of the four two-word instructions LBL, TML, IOL and TL. -/
def isTwoWord (w : RomWord) : Bool :=
  w == 0x00#8 || w == 0x01#8 || w == 0x02#8 || w == 0x03#8 || w == 0x1C#8 || romField w 5 4 == 0b0101#4

/-- R35: the class of a first word. -/
def wordClass (w : RomWord) : StringClass :=
  if romField w 5 4 = 0b0111#4 then .ldi
  else if romField w 5 4 = 0b1100#4 then .lb
  else if w = 0x00#8 then .lb
  else .none

/-- R75, rows 0x00 to 0x27: one mnemonic per value except 0x01 to 0x03. `decodeWords` sends no other word here, so
0x27 is the only one that reaches the last line. -/
def decodeLow (w w2 : RomWord) : Instr :=
  match w.toNat with
  | 0x00 => .lbl (~~~w2)
  | 0x01 | 0x02 | 0x03 => .tml (romField w 1 4 ++ w2)
  | 0x04 => .lbua
  | 0x05 => .rtn
  | 0x06 => .xs
  | 0x07 => .rtnsk
  | 0x08 => .adcsk
  | 0x09 => .adsk
  | 0x0A => .adc
  | 0x0B => .ad
  | 0x0C => .eor
  | 0x0D => .and
  | 0x0E => .comp
  | 0x0F => .or
  | 0x10 => .lbmx
  | 0x11 => .labl
  | 0x12 => .lax
  | 0x13 => .sag
  | 0x14 => .skf2
  | 0x15 => .skc
  | 0x16 => .skf1
  | 0x17 => .incb
  | 0x18 => .xbmx
  | 0x19 => .xabl
  | 0x1A => .xax
  | 0x1B => .lxa
  | 0x1C => .iol w2
  | 0x1D => .doa
  | 0x1E => .skz
  | 0x1F => .decb
  | 0x20 => .sc
  | 0x21 => .sf2
  | 0x22 => .sf1
  | 0x23 => .dib
  | 0x24 => .rc
  | 0x25 => .rf2
  | 0x26 => .rf1
  | _ => .dia

/-- R76, the decision procedure on a first word; the second word is used only by LBL, TML, IOL and TL (R77). A field
the source writes between bars is complemented (R10, R72), every other field is used as stored (R73). -/
def decodeWords (w w2 : RomWord) : Instr :=
  if romField w 7 2 = 0b10#2 then .t (romField w 1 6)
  else if romField w 7 2 = 0b11#2 then
    if romField w 5 2 = 0b00#2 then .lb (romField w 1 4) else .tm (romField w 1 6)
  else if romField w 5 4 = 0b0111#4 then .ldi (~~~(romField w 1 4))
  else if romField w 5 4 = 0b0110#4 then
    if w = 0x65#8 then .dc else if w = 0x6F#8 then .cys else .adi (~~~(romField w 1 4))
  else if romField w 5 4 = 0b0101#4 then .tl (romField w 1 4 ++ w2)
  else if romField w 5 4 = 0b0100#4 then .skbi (romField w 1 4)
  else if romField w 4 5 = 0b00111#5 then .ex (~~~(romField w 1 3))
  else if romField w 4 5 = 0b00110#5 then .ld (~~~(romField w 1 3))
  else if romField w 4 5 = 0b00101#5 then .exd (~~~(romField w 1 3))
  else decodeLow w w2

/-- Why a list of words holds no instruction: it ends before the instruction does. -/
inductive DecodeError where
  | noFirstWord
  | noSecondWord
  deriving DecidableEq, Repr

/-- The instruction at the head of a list of ROM words, lowest address first, and the words after it. -/
def decode : List RomWord → Except DecodeError (Instr × List RomWord)
  | [] => .error .noFirstWord
  | w :: rest =>
    if isTwoWord w then
      match rest with
      | [] => .error .noSecondWord
      | w2 :: rest2 => .ok (decodeWords w w2, rest2)
    else .ok (decodeWords w 0x00#8, rest)

/-- The words of an instruction (R71, R72, R73, R80), first word first. -/
def encode : Instr → List RomWord
  | .lb i => [0b1100#4 ++ i]
  | .lbl v => [0x00#8, ~~~v]
  | .sag => [0x13#8]
  | .labl => [0x11#8]
  | .incb => [0x17#8]
  | .decb => [0x1F#8]
  | .xabl => [0x19#8]
  | .lbua => [0x04#8]
  | .lbmx => [0x10#8]
  | .xbmx => [0x18#8]
  | .cys => [0x6F#8]
  | .ld n => [0b00110#5 ++ ~~~n]
  | .ex n => [0b00111#5 ++ ~~~n]
  | .exd n => [0b00101#5 ++ ~~~n]
  | .xs => [0x06#8]
  | .xax => [0x1A#8]
  | .lax => [0x12#8]
  | .lxa => [0x1B#8]
  | .ldi n => [0b0111#4 ++ ~~~n]
  | .rtn => [0x05#8]
  | .rtnsk => [0x07#8]
  | .t field => [0b10#2 ++ field]
  | .tl target => [0b0101#4 ++ target.extractLsb' 8 4, target.extractLsb' 0 8]
  | .tml target => [0b0000#4 ++ target.extractLsb' 8 4, target.extractLsb' 0 8]
  | .tm k => [0b11#2 ++ k]
  | .ad => [0x0B#8]
  | .adc => [0x0A#8]
  | .adcsk => [0x08#8]
  | .adsk => [0x09#8]
  | .and => [0x0D#8]
  | .or => [0x0F#8]
  | .eor => [0x0C#8]
  | .comp => [0x0E#8]
  | .adi n => [0b0110#4 ++ ~~~n]
  | .dc => [0x65#8]
  | .dia => [0x27#8]
  | .dib => [0x23#8]
  | .doa => [0x1D#8]
  | .iol cmd => [0x1C#8, cmd]
  | .skz => [0x1E#8]
  | .skf2 => [0x14#8]
  | .skf1 => [0x16#8]
  | .skc => [0x15#8]
  | .skbi n => [0b0100#4 ++ n]
  | .rf1 => [0x26#8]
  | .sf1 => [0x22#8]
  | .sf2 => [0x21#8]
  | .sc => [0x20#8]
  | .rc => [0x24#8]
  | .rf2 => [0x25#8]

/-- How many ROM words an instruction occupies (R70). -/
def Instr.words : Instr → Nat
  | .lbl _ | .tml _ | .iol _ | .tl _ => 2
  | .lb _ | .sag | .labl | .incb | .decb | .xabl | .lbua | .lbmx | .xbmx
  | .cys | .ld _ | .ex _ | .exd _ | .xs | .xax | .lax | .lxa | .ldi _
  | .rtn | .rtnsk | .t _ | .tm _
  | .ad | .adc | .adcsk | .adsk | .and | .or | .eor | .comp | .adi _ | .dc
  | .dia | .dib | .doa
  | .skz | .skf2 | .skf1 | .skc | .skbi _ | .rf1 | .sf1 | .sf2 | .sc | .rc | .rf2 => 1

/-- Word `k` (0 or 1) of the instruction whose bits are the low `nbits` bits of `w`, bit 0 the least significant bit of
the first word; every bit above `nbits` is 0. -/
def tableWord (nbits w k : Nat) : RomWord := BitVec.ofNat 8 ((w % 2 ^ nbits) >>> (8 * k))

/-- What the decoder reads from the words that opcode_table.json numbers as `w`. -/
def decodeTableWord (nbits w : Nat) : Option Instr :=
  match decode [tableWord nbits w 0, tableWord nbits w 1] with
  | .ok (i, _) => some i
  | .error _ => none

end Sys2Proof
end

