-- ==== Sys2Proof/Config.lean ====
section
/-! DEFINITION. What an implementation or platform fixes (spec/00_scope.md R5, spec/92_eei_decisions.md) and the free
values (spec/93_implementation_defined.md). `Platform` is plain data that `State` carries and no step changes, so
that a statement about every state is a statement about every platform (log 2). A free value is an opaque constant
without a body, so no proof can see what it is. -/

namespace Sys2Proof

/-- The two discrete input groups, `g` of `DiscreteIn(g)` (R180a). -/
inductive DiscreteGroup where
  | a
  | b
  deriving DecidableEq, Repr

/-- `VARIANT` of R5: no rule of the spec depends on it (D24); it is named so that it has no silent value. -/
inductive Variant where
  | pps4
  | pps4Slash2
  deriving DecidableEq, Repr

/-- A run of RAM addresses `lo` to `hi`, both inclusive. -/
structure AddrRange where
  lo : Nat
  hi : Nat
  deriving DecidableEq, Repr

/-- The named parameters of R5 that are neither the ROM (`State.rom`) nor the environment (`State.world`). -/
structure Platform where
  /-- `RAM_POPULATED` (R55, D18): the addresses with a device behind them. -/
  ramPopulated : List AddrRange
  /-- `RESET_P` (R230, D14). -/
  resetP : Addr
  /-- `SKIPPED_WORD_COUNTS_IN_STRING` (R36, R243, D5). -/
  skippedWordCountsInString : Bool
  /-- `VARIANT` (R1, D24). -/
  variant : Variant
  deriving DecidableEq, Repr

/-- The spec's defaults (R5): all of RAM populated, `RESET_P` = 0x000, skipped words do not count. The spec gives
VARIANT no default: PPS-4 is a DESIGN CHOICE (log 2), and nothing reads it. -/
def Platform.standard : Platform :=
  { ramPopulated := [{ lo := 0, hi := 4095 }], resetP := 0x000#12,
    skippedWordCountsInString := false, variant := .pps4 }

/-- FREE VALUE (R50, U2; log 4): what the `n`-th draw reads from a ROM address with no ROM behind it. -/
opaque Config.freeRomWord : Nat → Addr → RomWord

/-- FREE VALUE (R55, U3; log 5): what the `n`-th draw reads from a RAM address outside `RAM_POPULATED`. -/
opaque Config.freeRamWord : Nat → Addr → Nibble

/-- FREE VALUE (R40, U1; log 6): the content of a RAM word that nothing has written since power-on, the same at every
read until it is written. -/
opaque Config.powerOnRam : Addr → Nibble

/-- FREE VALUE (R180a, U12; log 7): the `n`-th draw, taken from the inputs of a discrete group. -/
opaque Config.freeDiscreteIn : DiscreteGroup → Nat → Nibble

/-- FREE VALUE (R180c, U7, U12; log 7): the `n`-th draw, the data-bus reply to `cmd` and `out`. -/
opaque Config.freeBusReply : Nat → RomWord → Nibble → Nibble

end Sys2Proof
end

