-- ==== Sys2Proof/Machine/Memory.lean ====
section
/-! DEFINITION. A word-addressed memory as plain data (spec/20_memory.md R50, R54): the words whose content is known,
as (address, word) pairs in one canonical form. An unlisted address has NO known content: what a read of it gives is a
free value of Config (log 4, log 6), so no listed word can equal it and a written word always stays listed. -/

namespace Sys2Proof.Machine

/-- A memory of `w`-bit words. -/
abbrev Memory (w : Nat) := List (Nat × BitVec w)

/-- The known content of address `n`, if it has one. -/
def Memory.read {w : Nat} : Memory w → Nat → Option (BitVec w)
  | [], _ => none
  | (k, v) :: m, n => if k = n then some v else Memory.read m n

/-- `m` with address `n` holding `v`; every other address is left alone. -/
def Memory.write {w : Nat} : Memory w → Nat → BitVec w → Memory w
  | [], n, v => [(n, v)]
  | (k, u) :: m, n, v =>
    if n < k then (n, v) :: (k, u) :: m
    else if n = k then (n, v) :: m
    else (k, u) :: Memory.write m n v

/-- Every address is at least `lo`, below 4096, and greater than the one before it. -/
def Memory.risingFrom {w : Nat} (lo : Nat) : Memory w → Bool
  | [] => true
  | (k, _) :: m => lo ≤ k && k < 4096 && Memory.risingFrom (k + 1) m

/-- The canonical form: strictly rising 12-bit addresses. -/
def Memory.wf {w : Nat} (m : Memory w) : Bool := Memory.risingFrom 0 m

end Sys2Proof.Machine
end

