-- ==== Sys2Proof/Machine/Written.lean ====
section
/-! DEFINITION. Which registers and flip-flops a program has written since reset (spec/60_exceptions.md R218,
spec/10_state.md R40, spec/70_reset_and_hazards.md R231). The spec has no such state: it is the model's own record
(log 28), kept so that a claim can rule out a read of what nothing has written. No instruction's effect depends on it. -/

namespace Sys2Proof.Machine

/-- What is recorded of SA and of SB. -/
inductive StackRecord where
  /-- Nothing has written the register. -/
  | never
  /-- Written, but with a copy, whole or in part, of a save register that held no written value. -/
  | copied
  /-- It holds an address or digits that the program has put there. -/
  | loaded
  deriving DecidableEq, Repr

/-- One record for each register that R40 leaves unspecified; RAM words have theirs in the list `State.ram`. -/
structure Written where
  a : Bool
  x : Bool
  bu : Bool
  bm : Bool
  bl : Bool
  sa : StackRecord
  sb : StackRecord
  c : Bool
  ff1 : Bool
  ff2 : Bool
  doa : Bool
  deriving DecidableEq, Repr

/-- Right after reset nothing is written (R40). -/
def Written.nothing : Written :=
  { a := false, x := false, bu := false, bm := false, bl := false, sa := .never, sb := .never,
    c := false, ff1 := false, ff2 := false, doa := false }

/-- The record of a save register whose value was copied from one with record `r`. -/
def StackRecord.copy : StackRecord → StackRecord
  | .never | .copied => .copied
  | .loaded => .loaded

/-- The record after instruction `i`: what its Operation block writes (R100 to R201). Calls, returns and XS copy save
registers with their records; CYS leaves two old digits in SA. -/
def recordWrites (i : Instr) (w : Written) : Written :=
  match i with
  | .lb _ => { w with bu := true, bm := true, bl := true, sb := .loaded }
  | .lbl _ => { w with bu := true, bm := true, bl := true }
  | .incb | .decb => { w with bl := true }
  | .xabl => { w with a := true, bl := true }
  | .lbua => { w with a := true, bu := true }
  | .lbmx => { w with bm := true }
  | .xbmx => { w with x := true, bm := true }
  | .cys => { w with a := true, sa := w.sa.copy }
  | .ld _ | .ex _ => { w with a := true, bm := true }
  | .exd _ => { w with a := true, bm := true, bl := true }
  | .xs | .rtn | .rtnsk => { w with sa := w.sb.copy, sb := w.sa.copy }
  | .xax => { w with a := true, x := true }
  | .lxa => { w with x := true }
  | .tml _ | .tm _ => { w with sa := .loaded, sb := w.sa.copy }
  | .ad | .adc | .adcsk | .adsk => { w with a := true, c := true }
  | .labl | .lax | .ldi _ | .and | .or | .eor | .comp | .adi _ | .dc | .dia | .dib | .iol _ => { w with a := true }
  | .doa => { w with doa := true }
  | .rf1 | .sf1 => { w with ff1 := true }
  | .sf2 | .rf2 => { w with ff2 := true }
  | .sc | .rc => { w with c := true }
  | .sag | .t _ | .tl _ | .skz | .skf2 | .skf1 | .skc | .skbi _ => w

/-- Does forming the RAM address (R56; `sag` when a SAG is in force) read a part of B that nothing has written? -/
def Written.addressUnwritten (sag : Bool) (w : Written) : Bool := !w.bl || (!sag && (!w.bu || !w.bm))

/-- R218: does instruction `i` read a register or flip-flop that nothing has written since reset? The reads are those of
the Operation blocks and of the table of spec/10_state.md section 1, so TM, TML and LB, which only pass SA on, read none.
A copy of a save register that nothing has loaded counts as unwritten where its digits are used, as the new P or as A
(R231g). -/
def readsUnwritten (i : Instr) (sag : Bool) (w : Written) : Bool :=
  match i with
  | .sag | .labl | .incb | .decb | .skbi _ => !w.bl
  | .xabl => !w.a || !w.bl
  | .lbmx | .lax => !w.x
  | .xbmx => !w.x || !w.bm
  | .cys => !w.a || w.sa != .loaded
  | .ld _ => !w.bm || w.addressUnwritten sag
  | .ex _ | .exd _ => !w.a || !w.bm || w.addressUnwritten sag
  | .xs => w.sa == .never || w.sb == .never
  | .rtn | .rtnsk => w.sa != .loaded || w.sb == .never
  | .xax => !w.a || !w.x
  | .ad | .adsk | .and | .or | .eor | .lbua => !w.a || w.addressUnwritten sag
  | .adc | .adcsk => !w.a || !w.c || w.addressUnwritten sag
  | .lxa | .comp | .adi _ | .dc | .doa | .iol _ | .skz => !w.a
  | .skf2 => !w.ff2
  | .skf1 => !w.ff1
  | .skc => !w.c
  | .lb _ | .lbl _ | .ldi _ | .t _ | .tl _ | .tml _ | .tm _ | .dia | .dib
  | .rf1 | .sf1 | .sf2 | .sc | .rc | .rf2 => false

end Sys2Proof.Machine
end

