-- ==== Sys2Proof/Machine/State.lean ====
section
/-! DEFINITION. The state of the machine (spec/10_state.md R20 to R36), its reset (R40, R230), and the reasons a step
can stop: there is none but an instruction without a meaning (R36, R210). -/

namespace Sys2Proof.Machine

/-- What the CPU and its environment exchange, each an event in program order (R64, R180). -/
inductive IoEvent where
  | discreteIn (g : DiscreteGroup) (value : Nibble)
  | discreteOut (value : Nibble)
  | ioTransact (cmd : RomWord) (out : Nibble) (reply : Nibble)
  deriving DecidableEq, Repr

/-- The environment (R15, R180): the values it is going to supply, where a run fixes them, and the events so far.
When a list of values is empty the environment draws a free value (log 7). -/
structure World where
  /-- The next samples of discrete group A, first one first. -/
  samplesA : List Nibble
  /-- The next samples of discrete group B, first one first. -/
  samplesB : List Nibble
  /-- The next data-bus replies to IOL, first one first. -/
  replies : List Nibble
  /-- The events so far, oldest first. -/
  events : List IoEvent
  deriving DecidableEq, Repr

/-- R36: A, X, B, P, SA, SB, C, FF1, FF2, DOA, RAM, SKIP, SAGF and LAST are the spec's state. B is held as its parts
BU, BM, BL, which alias it exactly (R22). `sagNow` is the step's local value `sag_now`; it is false between steps.
`rom` and `platform` are the parameters of R5, which no step changes; `world` is the environment; `draws` counts the
free values drawn so far; `written` records the registers written since reset (R218, log 28). -/
structure State where
  a : Nibble
  x : Nibble
  bu : Nibble
  bm : Nibble
  bl : Nibble
  p : Addr
  sa : Addr
  sb : Addr
  c : Bool
  ff1 : Bool
  ff2 : Bool
  doa : Nibble
  ram : Memory 4
  skip : Bool
  sagf : Bool
  last : StringClass
  sagNow : Bool
  rom : Memory 8
  platform : Platform
  world : World
  draws : Nat
  written : Written
  deriving DecidableEq, Repr

/-- R22: the 12-bit B register, `BU:BM:BL`. -/
def State.b (s : State) : Addr := s.bu ++ s.bm ++ s.bl

/-- Faults of the machine: none. The CPU raises no synchronous exception (R210) and the step never faults (R36). -/
inductive Fault where
  deriving DecidableEq, Repr

/-- Refusals of the model. -/
inductive Refusal where
  /-- Raised only by an arm of `exec` whose instruction has no meaning yet; no arm of this model is one. Safe. -/
  | notModelled (mnemonic : String)
  deriving DecidableEq, Repr

/-- The outcome of an instruction or of a step. -/
abbrev Outcome := Host.Outcome State Fault Refusal

/-- The machine after reset on a platform whose ROM holds `rom` and whose environment is `world` (R40, R230): P, SKIP,
SAGF and LAST as the spec decides (D14). DESIGN CHOICE (log 3, unsafe): the spec leaves A, X, B, SA, SB, C, FF1, FF2
and DOA unspecified and this names zero for each, and `written` records none of them. No RAM word has a known content. -/
def State.resetWith (platform : Platform) (rom : Memory 8) (world : World) : State :=
  { a := 0#4, x := 0#4, bu := 0#4, bm := 0#4, bl := 0#4,
    p := platform.resetP, sa := 0x000#12, sb := 0x000#12,
    c := false, ff1 := false, ff2 := false, doa := 0#4,
    ram := [], skip := false, sagf := false, last := .none, sagNow := false,
    rom := rom, platform := platform, world := world, draws := 0, written := .nothing }

/-- The machine right after reset with the spec's default parameters, no program placed (log 1) and an environment
that has supplied and seen nothing. -/
def State.reset : State :=
  State.resetWith Platform.standard [] { samplesA := [], samplesB := [], replies := [], events := [] }

end Sys2Proof.Machine
end

