-- ==== Sys2Proof/Machine/Flags.lean ====
section
/-! DEFINITION. The 4-bit adder and the carry out of it (spec/43_arithmetic_logic.md R160, spec/00_scope.md R12): the sum
is computed exactly and narrowed at the end. The machine has no other computed flag: no zero, sign or overflow flag
exists (R160, R191), and a skip tests a register or the carry-out itself. -/

namespace Sys2Proof.Machine

/-- R160a, R160b: the exact sum of two 4-bit values and a carry-in. -/
def exactSum (u v : Nibble) (cin : Bool) : Nat := u.toNat + v.toNat + cin.toNat

/-- R160: `s mod 16`. -/
def sumNibble (sum : Nat) : Nibble := BitVec.ofNat 4 sum

/-- R160: `s div 16`, which is 1 exactly when `s >= 16`. -/
def carryOut (sum : Nat) : Bool := 16 ≤ sum

end Sys2Proof.Machine
end

