-- ==== Sys2Proof/Machine/Operands.lean ====
section
/-! DEFINITION. The operand forms: the RAM address of a step and the word it names, the page 3 table addresses, and the
ways an instruction changes the parts of B and of SA (spec/20_memory.md R50, R53 to R56; the rules of files 40 to 42). -/

namespace Sys2Proof.Machine

/-- R56: the RAM address put out in this step, `B`, or `0000 0000 : BL` after a SAG. -/
def ramAddr (s : State) : Addr := if s.sagNow then 0x00#8 ++ s.bl else s.b

/-- R55: does address `adr` belong to `RAM_POPULATED`? -/
def ramPopulated (s : State) (adr : Addr) : Bool :=
  s.platform.ramPopulated.any fun r => r.lo ≤ adr.toNat && adr.toNat ≤ r.hi

/-- What the populated RAM holds at `adr` (R54); an unpopulated address holds nothing (R55). -/
def ramContent (s : State) (adr : Addr) : Option Nibble :=
  if ramPopulated s adr then some ((Memory.read s.ram adr.toNat).getD (Config.powerOnRam adr)) else none

/-- `RamRead(adr)` (R54, R55): the word held, or a fresh draw at an unpopulated address. -/
def ramWord (s : State) (adr : Addr) : Nibble := (ramContent s adr).getD (Config.freeRamWord s.draws adr)

/-- `M` (R8, R11): `RamRead(RamAddr())`. -/
def ramOperand (s : State) : Nibble := ramWord s (ramAddr s)

/-- `RomRead(adr)` (R50): the word of the program, or a fresh draw where there is no ROM. -/
def romWord (s : State) (adr : Addr) : RomWord :=
  (Memory.read s.rom adr.toNat).getD (Config.freeRomWord s.draws adr)

/-- R100: `P(12:5) <- 00001100, P(4:1) <- I1(4:1)`, the LB table word's address 0x0C0 + i. -/
def lbTableAddr (i : Nibble) : Addr := 0b00001100#8 ++ i

/-- R146: `P(12:7) <- 000011, P(6:1) <- I1(6:1)`, the TM pointer word's address 0x0C0 + k. -/
def tmPointerAddr (k : BitVec 6) : Addr := 0b000011#6 ++ k

/-- R146: `P(12:9) <- 0001, P(8:1) <- I2(8:1)`, the subroutine entry a pointer word names. -/
def tmEntry (pointer : RomWord) : Addr := 0b0001#4 ++ pointer

/-- R143: `P(6:1) <- I1(6:1)`, the page of the advanced P kept. -/
def inPage (p : Addr) (field : BitVec 6) : Addr := p.extractLsb' 6 6 ++ field

/-- R121: BM after `B(7:5) <- B(7:5) xor n`; `B(8)`, the top bit of BM, is kept. -/
def bmXor (bm : Nibble) (n : BitVec 3) : Nibble := bm ^^^ (0#1 ++ n)

/-- R105: `(BL + 15) mod 16`. -/
def decNibble (bl : Nibble) : Nibble := bl + 15#4

/-- R104: `(BL + 1) mod 16`. -/
def incNibble (bl : Nibble) : Nibble := bl + 1#4

/-- R120: SA(4:1), the digit that CYS moves into A. -/
def lowDigit (sa : Addr) : Nibble := sa.extractLsb' 0 4

/-- R120: SA shifted right by one digit, `digit` entering at SA(12:9). -/
def shiftInDigit (digit : Nibble) (sa : Addr) : Addr := digit ++ sa.extractLsb' 4 8

end Sys2Proof.Machine
end

