-- ==== Sys2Proof/Machine/Ops.lean ====
section
/-! DEFINITION. The shared operations: memory accesses, the skip request, the return stack, the environment, and the
parts of the instruction step (spec/10_state.md R36). The machine takes no exception and has no return from one (R210,
R213, R215): what stands in that place is the return stack, pushed by TM, TML and LB and popped by RTN, RTNSK and LB. -/

namespace Sys2Proof.Machine

/-- The state after `RamRead(adr)`: a draw was made if the address is unpopulated (R55). -/
def afterRamRead (adr : Addr) (s : State) : State :=
  { s with draws := s.draws + (if ramPopulated s adr then 0 else 1) }

/-- `RamWrite(adr, v)` (R54); at an unpopulated address the write is lost (R55). -/
def ramWrite (adr : Addr) (v : Nibble) (s : State) : State :=
  { s with ram := if ramPopulated s adr then Memory.write s.ram adr.toNat v else s.ram }

/-- The state after `RomRead(adr)`: a draw was made if there is no ROM at the address (R50). -/
def afterRomRead (adr : Addr) (s : State) : State :=
  { s with draws := s.draws + (if (Memory.read s.rom adr.toNat).isSome then 0 else 1) }

/-- `if cond then SKIP <- 1` (R32, R190). -/
def skipIf (cond : Bool) (s : State) : State := { s with skip := s.skip || cond }

/-- R24: `SB <- SA; SA <- P`, the first half of a call and of LB. -/
def pushReturn (s : State) : State := { s with sb := s.sa, sa := s.p }

/-- R24: `P <- SA; swap(SA, SB)`, a return and the second half of LB. -/
def popReturn (s : State) : State := { s with p := s.sa, sa := s.sb, sb := s.sa }

/-- R100, R101: `BU <- 0; B(8:1) <- v`. -/
def loadB8 (v : RomWord) (s : State) : State :=
  { s with bu := 0#4, bm := v.extractLsb' 4 4, bl := v.extractLsb' 0 4 }

/-- The common part of LD, EX and EXD (R121 to R123): A receives `M`, and `B(7:5)` is XORed with `n` after the address
was formed. -/
def loadAndStepB (n : BitVec 3) (s : State) : State :=
  { afterRamRead (ramAddr s) s with a := ramOperand s, bm := bmXor s.bm n }

/-- The common part of EX and EXD (R122, R123): the old A goes to the address the word came from. -/
def exchangeAndStepB (n : BitVec 3) (s : State) : State :=
  ramWrite (ramAddr s) s.a (loadAndStepB n s)

/-- The common part of AD, ADC, ADSK and ADCSK (R161 to R164): `C, A <- A + M + cin`. -/
def addMemory (cin : Bool) (s : State) : State :=
  { afterRamRead (ramAddr s) s with
    a := sumNibble (exactSum s.a (ramOperand s) cin)
    c := carryOut (exactSum s.a (ramOperand s) cin) }

/-- The common part of AND, OR and EOR (R165 to R167): A receives `f A M`. -/
def combineMemory (f : Nibble → Nibble → Nibble) (s : State) : State :=
  { afterRamRead (ramAddr s) s with a := f s.a (ramOperand s) }

/-- The samples of group `g` that the run fixes. -/
def World.samples (w : World) : DiscreteGroup → List Nibble
  | .a => w.samplesA
  | .b => w.samplesB

/-- `w` without the first fixed sample of group `g`. -/
def World.dropSample (w : World) : DiscreteGroup → World
  | .a => { w with samplesA := w.samplesA.tail }
  | .b => { w with samplesB := w.samplesB.tail }

/-- `w` with one more event (R180). -/
def World.record (w : World) (e : IoEvent) : World := { w with events := w.events ++ [e] }

/-- `DiscreteIn(g)` (R180a): the value the environment supplies. -/
def discreteIn (g : DiscreteGroup) (s : State) : Nibble :=
  (s.world.samples g).headD (Config.freeDiscreteIn g s.draws)

/-- The state after `DiscreteIn(g)`: the event is recorded, the fixed sample or the draw is used up. -/
def afterDiscreteIn (g : DiscreteGroup) (s : State) : State :=
  { s with
    world := (s.world.dropSample g).record (.discreteIn g (discreteIn g s))
    draws := s.draws + (if (s.world.samples g).isEmpty then 1 else 0) }

/-- `DiscreteOut(v)` (R180b) with its register (R27): DOA holds `v` and the event is recorded. -/
def discreteOut (v : Nibble) (s : State) : State :=
  { s with doa := v, world := s.world.record (.discreteOut v) }

/-- `IoTransact(cmd, out)` (R180c): what the addressed device puts on the data lines. -/
def busReply (cmd : RomWord) (out : Nibble) (s : State) : Nibble :=
  s.world.replies.headD (Config.freeBusReply s.draws cmd out)

/-- The state after `IoTransact(cmd, out)`. -/
def afterIoTransact (cmd : RomWord) (out : Nibble) (s : State) : State :=
  { s with
    world := { s.world with replies := s.world.replies.tail }.record (.ioTransact cmd out (busReply cmd out s))
    draws := s.draws + (if s.world.replies.isEmpty then 1 else 0) }

/-- R37: `P <- (P + 1) mod 4096`. -/
def advanceP (s : State) : State := { s with p := s.p + 1#12 }

/-- The state after `RomRead(P); P <- (P + 1) mod 4096` (R36, R37). -/
def afterFetch (s : State) : State := advanceP (afterRomRead s.p s)

/-- R36: the first word fetched, SAGF consumed into `sag_now`. -/
def beginStep (s : State) : State := { afterFetch s with sagNow := s.sagf, sagf := false }

/-- R36: the end of a step, with `LAST <- k`; `sag_now` is gone. -/
def endStep (k : StringClass) (s : State) : State := { s with last := k, sagNow := false }

/-- The record of what has been written since reset, after instruction `i` was executed (R218). -/
def recordExecuted (i : Instr) (s : State) : State := { s with written := recordWrites i s.written }

/-- R34, R36: an instruction of class `k` is ignored when the one before it had the same class, LDI or LB. -/
def stringIgnores (k last : StringClass) : Bool :=
  match k with
  | .none => false
  | .ldi => last == .ldi
  | .lb => last == .lb

/-- R36, the branch SKIP = 1: the word `w` is ignored. -/
def ignoreBySkip (w : RomWord) (s : State) : State :=
  endStep (if s.platform.skippedWordCountsInString then wordClass w else .none) { s with skip := false }

/-- R36, the string branches: the whole instruction is passed over, both words of an LBL. -/
def ignoreByString (w : RomWord) (s : State) : State :=
  endStep (wordClass w) (if w = 0x00#8 then advanceP s else s)

/-- The second word is fetched for LBL, TML, IOL and TL (R36, R77). -/
def fetchSecond (w : RomWord) (s : State) : State := if isTwoWord w then afterFetch s else s

/-- R36: what becomes of the outcome of `execute` of `i`, an instruction of class `k`. -/
def finishStep (k : StringClass) (i : Instr) : Outcome → Outcome
  | .next s => .next (endStep k (recordExecuted i s))
  | .fault r => .fault r
  | .refused r => .refused r

/-- R36, the last branch: `w` is decoded with the word after it and run by `run`, which finds P past the instruction's
words (R13, R37). -/
def executeWord (run : Instr → State → Outcome) (w : RomWord) (s : State) : Outcome :=
  finishStep (wordClass w) (decodeWords w (romWord s s.p)) (run (decodeWords w (romWord s s.p)) (fetchSecond w s))

/-- The instruction step of R36 over any meaning `run` of the instructions. -/
def stepWith (run : Instr → State → Outcome) (s : State) : Outcome :=
  let w := romWord s s.p
  let s1 := beginStep s
  if s.skip then .next (ignoreBySkip w s1)
  else if stringIgnores (wordClass w) s.last then .next (ignoreByString w s1)
  else executeWord run w s1

/-- `s` with word `w` of the program at ROM address `adr`. -/
def placeWord (adr : Addr) (w : RomWord) (s : State) : State :=
  { s with rom := Memory.write s.rom adr.toNat w }

/-- `s` with the two words at P, and nothing pending that would keep the next step from executing them. -/
def placeInstruction (w w2 : RomWord) (s : State) : State :=
  { placeWord (s.p + 1#12) w2 (placeWord s.p w s) with skip := false, last := .none }

end Sys2Proof.Machine
end

