-- ==== Sys2Proof/Machine/Arithmetic.lean ====
section
/-! DEFINITION. The arithmetic and logic instructions (spec/43_arithmetic_logic.md R160 to R170). -/

namespace Sys2Proof.Machine

/-- R161: `C, A <- A + M`. -/
def execAd (s : State) : Outcome := .next (addMemory false s)

/-- R162: `C, A <- A + M + C`. -/
def execAdc (s : State) : Outcome := .next (addMemory s.c s)

/-- R163: as ADC, and skip when the new C is 1. -/
def execAdcsk (s : State) : Outcome := .next (skipIf (addMemory s.c s).c (addMemory s.c s))

/-- R164: as AD, and skip when the new C is 1. -/
def execAdsk (s : State) : Outcome := .next (skipIf (addMemory false s).c (addMemory false s))

/-- R165: `A <- A & M`. -/
def execAnd (s : State) : Outcome := .next (combineMemory (fun a m => a &&& m) s)

/-- R166: `A <- A or M`. -/
def execOr (s : State) : Outcome := .next (combineMemory (fun a m => a ||| m) s)

/-- R167: `A <- A xor M`. -/
def execEor (s : State) : Outcome := .next (combineMemory (fun a m => a ^^^ m) s)

/-- R168: `A <- 15 - A`. -/
def execComp (s : State) : Outcome := .next { s with a := ~~~s.a }

/-- R169: `A <- A + n`, skip on the carry-out; C is neither read nor written. -/
def execAdi (n : Nibble) (s : State) : Outcome :=
  .next (skipIf (carryOut (exactSum s.a n false)) { s with a := sumNibble (exactSum s.a n false) })

/-- R170: `A <- (A + 10) mod 16`, no skip, C untouched (C2, D12). -/
def execDc (s : State) : Outcome := .next { s with a := sumNibble (exactSum s.a 10#4 false) }

end Sys2Proof.Machine
end

