-- ==== Sys2Proof/Machine/ControlTransfer.lean ====
section
/-! DEFINITION. The control-transfer instructions (spec/42_control_transfer.md R140 to R146). P is past the
instruction's words when a meaning starts (R13, R37). -/

namespace Sys2Proof.Machine

/-- R141: `P <- SA; swap(SA, SB)`. -/
def execRtn (s : State) : Outcome := .next (popReturn s)

/-- R142: as RTN, and the word at the return address is skipped. -/
def execRtnsk (s : State) : Outcome := .next (skipIf true (popReturn s))

/-- R143: `P(6:1) <- I(6:1)` of the advanced P (D9). -/
def execT (field : BitVec 6) (s : State) : Outcome := .next { s with p := inPage s.p field }

/-- R144: `P <- target`. -/
def execTl (target : Addr) (s : State) : Outcome := .next { s with p := target }

/-- R145: a call of `target`; the return address is the one after the second word (D10). -/
def execTml (target : Addr) (s : State) : Outcome := .next { pushReturn s with p := target }

/-- R146: a call of the entry that the page 3 pointer word names. -/
def execTm (k : BitVec 6) (s : State) : Outcome :=
  let away := { pushReturn s with p := tmPointerAddr k }
  .next { afterRomRead away.p away with p := tmEntry (romWord away away.p) }

end Sys2Proof.Machine
end

