-- ==== Sys2Proof/Machine/DataAddress.lean ====
section
/-! DEFINITION. The data-address instructions (spec/40_data_address.md R100 to R109). P is past the instruction's words
when a meaning starts (R13). -/

namespace Sys2Proof.Machine

/-- R100: an excursion to the page 3 table and back; SB ends with the address after the LB. -/
def execLb (i : Nibble) (s : State) : Outcome :=
  let away := { pushReturn s with p := lbTableAddr i }
  .next (popReturn (loadB8 (~~~(romWord away away.p)) (afterRomRead away.p away)))

/-- R101: `B <- v`, SA and SB untouched. -/
def execLbl (v : RomWord) (s : State) : Outcome := .next (loadB8 v s)

/-- R102: `SAGF <- 1`. -/
def execSag (s : State) : Outcome := .next { s with sagf := true }

/-- R103: `A <- BL`. -/
def execLabl (s : State) : Outcome := .next { s with a := s.bl }

/-- R104: BL is incremented modulo 16; skip on the new BL = 0. -/
def execIncb (s : State) : Outcome :=
  .next (skipIf (incNibble s.bl == 0#4) { s with bl := incNibble s.bl })

/-- R105: BL is decremented modulo 16; skip on the new BL = 15. -/
def execDecb (s : State) : Outcome :=
  .next (skipIf (decNibble s.bl == 15#4) { s with bl := decNibble s.bl })

/-- R106: `A <-> BL`. -/
def execXabl (s : State) : Outcome := .next { s with a := s.bl, bl := s.a }

/-- R107: `BU <- A` and `A <- M`, M at the address with the old BU (D8). -/
def execLbua (s : State) : Outcome :=
  .next { afterRamRead (ramAddr s) s with bu := s.a, a := ramOperand s }

/-- R108: `BM <- X`. -/
def execLbmx (s : State) : Outcome := .next { s with bm := s.x }

/-- R109: `X <-> BM`. -/
def execXbmx (s : State) : Outcome := .next { s with x := s.bm, bm := s.x }

end Sys2Proof.Machine
end

