-- ==== Sys2Proof/Machine/DataTransfer.lean ====
section
/-! DEFINITION. The data-transfer instructions (spec/41_data_transfer.md R120 to R128). -/

namespace Sys2Proof.Machine

/-- R120: a rotation by one digit of the ring A, SA; both right-hand sides are old values (C4, D11). -/
def execCys (s : State) : Outcome := .next { s with a := lowDigit s.sa, sa := shiftInDigit s.a s.sa }

/-- R121: `A <- M`, then `B(7:5) <- B(7:5) xor n`. -/
def execLd (n : BitVec 3) (s : State) : Outcome := .next (loadAndStepB n s)

/-- R122: `A <-> M`, then `B(7:5) <- B(7:5) xor n`. -/
def execEx (n : BitVec 3) (s : State) : Outcome := .next (exchangeAndStepB n s)

/-- R123: as EX, then BL is decremented modulo 16; skip on the new BL = 15. -/
def execExd (n : BitVec 3) (s : State) : Outcome :=
  .next (skipIf (decNibble s.bl == 15#4) { exchangeAndStepB n s with bl := decNibble s.bl })

/-- R124: `SA <-> SB`. -/
def execXs (s : State) : Outcome := .next { s with sa := s.sb, sb := s.sa }

/-- R125: `X <-> A`. -/
def execXax (s : State) : Outcome := .next { s with a := s.x, x := s.a }

/-- R126: `A <- X`. -/
def execLax (s : State) : Outcome := .next { s with a := s.x }

/-- R127: `X <- A`. -/
def execLxa (s : State) : Outcome := .next { s with x := s.a }

/-- R128: `A <- n`, when the step's string rule lets the LDI execute. -/
def execLdi (n : Nibble) (s : State) : Outcome := .next { s with a := n }

end Sys2Proof.Machine
end

