-- ==== Sys2Proof/Machine/InputOutput.lean ====
section
/-! DEFINITION. The input and output instructions (spec/44_input_output.md R180 to R184). -/

namespace Sys2Proof.Machine

/-- R181: `A <- DiscreteIn(A)`. -/
def execDia (s : State) : Outcome := .next { afterDiscreteIn .a s with a := discreteIn .a s }

/-- R182: `A <- DiscreteIn(B)`. -/
def execDib (s : State) : Outcome := .next { afterDiscreteIn .b s with a := discreteIn .b s }

/-- R183: `DOA <- A; DiscreteOut(A)`, the behaviour stated for both variants (D24). -/
def execDoa (s : State) : Outcome := .next (discreteOut s.a s)

/-- R184: the old A goes out inverted and the reply comes back inverted. -/
def execIol (cmd : RomWord) (s : State) : Outcome :=
  .next { afterIoTransact cmd (~~~s.a) s with a := ~~~(busReply cmd (~~~s.a) s) }

end Sys2Proof.Machine
end

