-- ==== Sys2Proof/Machine/SkipFlags.lean ====
section
/-! DEFINITION. The skip and flip-flop instructions (spec/45_skip_and_flags.md R190 to R201). -/

namespace Sys2Proof.Machine

/-- R191: skip if `A = 0`. -/
def execSkz (s : State) : Outcome := .next (skipIf (s.a == 0#4) s)

/-- R192: skip if `FF2 = 1`. -/
def execSkf2 (s : State) : Outcome := .next (skipIf s.ff2 s)

/-- R193: skip if `FF1 = 1`. -/
def execSkf1 (s : State) : Outcome := .next (skipIf s.ff1 s)

/-- R194: skip if `C = 1`. -/
def execSkc (s : State) : Outcome := .next (skipIf s.c s)

/-- R195: skip if `BL = n`, `n` as stored. -/
def execSkbi (n : Nibble) (s : State) : Outcome := .next (skipIf (s.bl == n) s)

/-- R196: `FF1 <- 0`. -/
def execRf1 (s : State) : Outcome := .next { s with ff1 := false }

/-- R197: `FF1 <- 1`. -/
def execSf1 (s : State) : Outcome := .next { s with ff1 := true }

/-- R198: `FF2 <- 1`. -/
def execSf2 (s : State) : Outcome := .next { s with ff2 := true }

/-- R199: `C <- 1`. -/
def execSc (s : State) : Outcome := .next { s with c := true }

/-- R200: `C <- 0`. -/
def execRc (s : State) : Outcome := .next { s with c := false }

/-- R201: `FF2 <- 0`. -/
def execRf2 (s : State) : Outcome := .next { s with ff2 := false }

end Sys2Proof.Machine
end

