-- ==== Sys2Proof/Machine/Dispatch.lean ====
section
/-! DEFINITION. The meaning of every instruction, one arm per constructor of Instr. -/

namespace Sys2Proof.Machine

def exec (i : Instr) (s : State) : Host.Outcome State Fault Refusal :=
  match i with
  -- DataAddress
  | .lb idx => Sys2Proof.Machine.execLb idx s
  | .lbl v => Sys2Proof.Machine.execLbl v s
  | .sag => Sys2Proof.Machine.execSag s
  | .labl => Sys2Proof.Machine.execLabl s
  | .incb => Sys2Proof.Machine.execIncb s
  | .decb => Sys2Proof.Machine.execDecb s
  | .xabl => Sys2Proof.Machine.execXabl s
  | .lbua => Sys2Proof.Machine.execLbua s
  | .lbmx => Sys2Proof.Machine.execLbmx s
  | .xbmx => Sys2Proof.Machine.execXbmx s
  -- DataTransfer
  | .cys => Sys2Proof.Machine.execCys s
  | .ld n => Sys2Proof.Machine.execLd n s
  | .ex n => Sys2Proof.Machine.execEx n s
  | .exd n => Sys2Proof.Machine.execExd n s
  | .xs => Sys2Proof.Machine.execXs s
  | .xax => Sys2Proof.Machine.execXax s
  | .lax => Sys2Proof.Machine.execLax s
  | .lxa => Sys2Proof.Machine.execLxa s
  | .ldi n => Sys2Proof.Machine.execLdi n s
  -- ControlTransfer
  | .rtn => Sys2Proof.Machine.execRtn s
  | .rtnsk => Sys2Proof.Machine.execRtnsk s
  | .t field => Sys2Proof.Machine.execT field s
  | .tl target => Sys2Proof.Machine.execTl target s
  | .tml target => Sys2Proof.Machine.execTml target s
  | .tm k => Sys2Proof.Machine.execTm k s
  -- Arithmetic
  | .ad => Sys2Proof.Machine.execAd s
  | .adc => Sys2Proof.Machine.execAdc s
  | .adcsk => Sys2Proof.Machine.execAdcsk s
  | .adsk => Sys2Proof.Machine.execAdsk s
  | .and => Sys2Proof.Machine.execAnd s
  | .or => Sys2Proof.Machine.execOr s
  | .eor => Sys2Proof.Machine.execEor s
  | .comp => Sys2Proof.Machine.execComp s
  | .adi n => Sys2Proof.Machine.execAdi n s
  | .dc => Sys2Proof.Machine.execDc s
  -- InputOutput
  | .dia => Sys2Proof.Machine.execDia s
  | .dib => Sys2Proof.Machine.execDib s
  | .doa => Sys2Proof.Machine.execDoa s
  | .iol cmd => Sys2Proof.Machine.execIol cmd s
  -- SkipFlags
  | .skz => Sys2Proof.Machine.execSkz s
  | .skf2 => Sys2Proof.Machine.execSkf2 s
  | .skf1 => Sys2Proof.Machine.execSkf1 s
  | .skc => Sys2Proof.Machine.execSkc s
  | .skbi n => Sys2Proof.Machine.execSkbi n s
  | .rf1 => Sys2Proof.Machine.execRf1 s
  | .sf1 => Sys2Proof.Machine.execSf1 s
  | .sf2 => Sys2Proof.Machine.execSf2 s
  | .sc => Sys2Proof.Machine.execSc s
  | .rc => Sys2Proof.Machine.execRc s
  | .rf2 => Sys2Proof.Machine.execRf2 s

end Sys2Proof.Machine
end

