-- ==== Sys2Proof/Machine/Step.lean ====
section
/-! DEFINITION. The step (spec/10_state.md R36), and how an instruction is placed where the next step fetches it. -/

namespace Sys2Proof.Machine

/-- One step of the CPU: R36 with the meanings of `exec`. -/
def step (s : State) : Host.Outcome State Fault Refusal := stepWith exec s

/-- The instruction whose bits are `w` (as opcode_table.json numbers them) stored at P and the address after it, with
SKIP = 0 and LAST = NONE so that the next step neither skips nor string-ignores it (R36). Log 1: the spec's ROM is a
parameter, so this stands for a program that was loaded from outside the machine. -/
def State.withFetchWord (s : State) (nbits w : Nat) : State :=
  placeInstruction (tableWord nbits w 0) (tableWord nbits w 1) s

end Sys2Proof.Machine
end

