-- ==== Sys2Proof/Machine/Timing.lean ====
section
/-! DEFINITION. The cycle counts (spec/70_reset_and_hazards.md R244, R245). No rule of the machine depends on them and
no state holds a time (R217, R245). -/

namespace Sys2Proof.Machine

/-- R244. -/
def cycles : Instr → Nat
  | .lb _ | .lbl _ | .iol _ | .tl _ | .tml _ | .tm _ => 2
  | .sag | .labl | .incb | .decb | .xabl | .lbua | .lbmx | .xbmx
  | .cys | .ld _ | .ex _ | .exd _ | .xs | .xax | .lax | .lxa | .ldi _
  | .rtn | .rtnsk | .t _
  | .ad | .adc | .adcsk | .adsk | .and | .or | .eor | .comp | .adi _ | .dc
  | .dia | .dib | .doa
  | .skz | .skf2 | .skf1 | .skc | .skbi _ | .rf1 | .sf1 | .sf2 | .sc | .rc | .rf2 => 1

/-- The cycles of the step that starts at `s`. R245: an ignored word costs one cycle and an ignored LBL two; that is
the spec's own estimate (D23). -/
def stepCycles (s : State) : Nat :=
  let w := romWord s s.p
  if s.skip then 1
  else if stringIgnores (wordClass w) s.last then (if w = 0x00#8 then 2 else 1)
  else cycles (decodeWords w (romWord (beginStep s) (beginStep s).p))

end Sys2Proof.Machine
end

