-- ==== Sys2Proof/Safety.lean ====
section
/-! DEFINITION. The terms claims are stated in: what an instruction leaves unchanged, which instruction may write which
element of the state (spec/10_state.md R39), the invariant of the machine (R38), the state after reset (R40), the end of
a run (R219), and the steps the spec advises a careful claim to rule out (R218). -/

namespace Sys2Proof.Machine

/-- The elements of State. -/
inductive Field where
  | a | x | bu | bm | bl | p | sa | sb | c | ff1 | ff2 | doa | ram
  | skip | sagf | last | sagNow | rom | platform | world | draws | written
  deriving DecidableEq, Repr

/-- `t` holds in element `f` what `s` holds. For RAM: every address reads as before. -/
def Field.same (f : Field) (s t : State) : Prop :=
  match f with
  | .a => t.a = s.a
  | .x => t.x = s.x
  | .bu => t.bu = s.bu
  | .bm => t.bm = s.bm
  | .bl => t.bl = s.bl
  | .p => t.p = s.p
  | .sa => t.sa = s.sa
  | .sb => t.sb = s.sb
  | .c => t.c = s.c
  | .ff1 => t.ff1 = s.ff1
  | .ff2 => t.ff2 = s.ff2
  | .doa => t.doa = s.doa
  | .ram => ∀ adr : Addr, ramContent t adr = ramContent s adr
  | .skip => t.skip = s.skip
  | .sagf => t.sagf = s.sagf
  | .last => t.last = s.last
  | .sagNow => t.sagNow = s.sagNow
  | .rom => t.rom = s.rom
  | .platform => t.platform = s.platform
  | .world => t.world = s.world
  | .draws => t.draws = s.draws
  | .written => t.written = s.written

/-- The frame: `t` differs from `s` in no element outside `written`. -/
def SameExcept (written : List Field) (s t : State) : Prop := ∀ f : Field, f ∉ written → f.same s t

/-- R39: the elements the summary table of spec/10_state.md section 1 lets an instruction write, SKIP among them. LB
writes P and SA only transiently. A RAM, ROM, discrete or bus read may draw a free value (`draws`), and the four input
and output instructions reach the environment (`world`). -/
def writable : Instr → List Field
  | .lb _ => [.bu, .bm, .bl, .sb, .draws]
  | .lbl _ => [.bu, .bm, .bl]
  | .sag => [.sagf]
  | .labl => [.a]
  | .incb | .decb => [.bl, .skip]
  | .xabl => [.a, .bl]
  | .lbua => [.a, .bu, .draws]
  | .lbmx => [.bm]
  | .xbmx => [.x, .bm]
  | .cys => [.a, .sa]
  | .ld _ => [.a, .bm, .draws]
  | .ex _ => [.a, .bm, .ram, .draws]
  | .exd _ => [.a, .bm, .bl, .ram, .skip, .draws]
  | .xs => [.sa, .sb]
  | .xax => [.a, .x]
  | .lax | .ldi _ => [.a]
  | .lxa => [.x]
  | .rtn => [.p, .sa, .sb]
  | .rtnsk => [.p, .sa, .sb, .skip]
  | .t _ | .tl _ => [.p]
  | .tml _ => [.p, .sa, .sb]
  | .tm _ => [.p, .sa, .sb, .draws]
  | .ad | .adc => [.a, .c, .draws]
  | .adcsk | .adsk => [.a, .c, .skip, .draws]
  | .and | .or | .eor => [.a, .draws]
  | .comp | .dc => [.a]
  | .adi _ => [.a, .skip]
  | .dia | .dib | .iol _ => [.a, .world, .draws]
  | .doa => [.doa, .world]
  | .skz | .skf2 | .skf1 | .skc | .skbi _ => [.skip]
  | .rf1 | .sf1 => [.ff1]
  | .sf2 | .rf2 => [.ff2]
  | .sc | .rc => [.c]

/-- `i` is encoded by the words `ws`, which decode to it again, and takes `n` cycles: the Encoding part of an
instruction's rule (R13). -/
def CodedAs (i : Instr) (ws : List RomWord) (n : Nat) : Prop :=
  encode i = ws ∧ decode ws = .ok (i, []) ∧ i.words = ws.length ∧ cycles i = n

/-- Nothing keeps the step at `s` from executing an instruction of class `k` (R36). -/
def Executes (k : StringClass) (s : State) : Prop := s.skip = false ∧ (k = .none ∨ s.last ≠ k)

/-- `s` as the instruction finds it after `n` words were fetched and `d` free values drawn (R36, R37). -/
def State.fetched (s : State) (n d : Nat) : State :=
  { s with p := s.p + BitVec.ofNat 12 n, sagNow := s.sagf, sagf := false, draws := s.draws + d }

/-- The program holds `w` at ROM address `adr`. -/
def HoldsRom (s : State) (adr : Addr) (w : RomWord) : Prop := Memory.read s.rom adr.toNat = some w

/-- The invariant: both memories in canonical form, no content at an unpopulated RAM address, `sag_now` gone, and R38:
SKIP and SAGF are never both 1, and LAST is NONE whenever one of them is. -/
structure Inv (s : State) : Prop where
  ramCanonical : Memory.wf s.ram = true
  romCanonical : Memory.wf s.rom = true
  ramInPopulated : ∀ adr : Addr, ramPopulated s adr = false → Memory.read s.ram adr.toNat = none
  noSagNow : s.sagNow = false
  notBoth : ¬ (s.skip = true ∧ s.sagf = true)
  skipLast : s.skip = true → s.last = .none
  sagLast : s.sagf = true → s.last = .none

/-- R40, R230: what the spec fixes of the state after reset. A, X, B, SA, SB, C, FF1, FF2 and DOA may hold anything. -/
structure AfterReset (s : State) : Prop where
  p : s.p = s.platform.resetP
  skip : s.skip = false
  sagf : s.sagf = false
  last : s.last = .none
  ramUnwritten : s.ram = []
  nothingWritten : s.written = .nothing

/-- R219: a run has ended when a step starts with P equal to the address of a T whose target is that same address, with
SKIP = 0. -/
def Ended (s : State) : Prop :=
  s.skip = false ∧ ∃ field : BitVec 6, HoldsRom s s.p (0b10#2 ++ field) ∧ inPage (s.p + 1#12) field = s.p

/-- What R218 advises a careful claim to rule out, for the step about to be taken. The machine itself goes on (R210). -/
inductive Hazard where
  | fetchOutsideRom
  | ramOutsidePopulated
  | ramNeverWritten
  | registerNeverWritten
  | skippedTwoWordInstruction
  | transferAtPageEnd
  | skippedStringNeighbour
  deriving DecidableEq, Repr

/-- R57: the instructions that access RAM. -/
def accessesRam : Instr → Bool
  | .ld _ | .ex _ | .exd _ | .ad | .adc | .adsk | .adcsk | .and | .or | .eor | .lbua => true
  | _ => false

/-- The ROM addresses the instruction at `s` reads after its first word: the second word, or the page 3 word (R50). -/
def furtherRomReads (s : State) : Instr → List Addr
  | .lb i => [lbTableAddr i]
  | .tm k => [tmPointerAddr k]
  | .lbl _ | .tl _ | .tml _ | .iol _ => [s.p + 1#12]
  | _ => []

/-- The instruction that the words at P spell. -/
def State.current (s : State) : Instr := decodeWords (romWord s s.p) (romWord (beginStep s) (s.p + 1#12))

/-- R40, R231h: what is known of the discrete outputs, which are unspecified until the first DOA. -/
def State.shownOutput (s : State) : Option Nibble := if s.written.doa then some s.doa else none

/-- Does hazard `h` of R218 stand at `s`? -/
def hazardAt (h : Hazard) (s : State) : Bool :=
  let runs := !s.skip && !(stringIgnores (wordClass (romWord s s.p)) s.last)
  let adr := ramAddr (beginStep s)
  match h with
  | .fetchOutsideRom =>
    (Memory.read s.rom s.p.toNat).isNone ||
      (runs && (furtherRomReads s s.current).any fun r => (Memory.read s.rom r.toNat).isNone)
  | .ramOutsidePopulated => runs && accessesRam s.current && !(ramPopulated s adr)
  | .ramNeverWritten =>
    runs && accessesRam s.current && ramPopulated s adr && (Memory.read s.ram adr.toNat).isNone
  | .registerNeverWritten => runs && readsUnwritten s.current s.sagf s.written
  | .skippedTwoWordInstruction => s.skip && isTwoWord (romWord s s.p)
  | .transferAtPageEnd =>
    runs && s.p.extractLsb' 0 6 == 0x3F#6 && (romWord s s.p).extractLsb' 6 2 == 0b10#2
  | .skippedStringNeighbour =>
    s.skip && wordClass (romWord s s.p) != .none &&
      wordClass (romWord s s.p) == wordClass (romWord (beginStep s) (s.p + 1#12))

end Sys2Proof.Machine
end

