-- ==== Sys2Proof/Certificates/Slice0/Obligations.lean ====
section
/-! DEFINITION. The statements for the provers, one `def Obligations.<Name> : Prop` each, from the numbered rules of
spec/. A rule's text is in the spec; each docstring names the rule. -/

open Sys2Proof Sys2Proof.Machine

/-! ### Encoding (spec/30_encoding.md) -/

/-- The words of a well-formed instruction decode to it, whatever follows them (R80, whose operands are the spec's own
choice D21 and whose complemented fields are its reading D1, log 15, and R81, which the spec derives). -/
def Obligations.DecodingAnEncodedInstructionGivesItBack : Prop :=
  ∀ (i : Instr) (rest : List RomWord), i.wf = true → decode (encode i ++ rest) = .ok (i, rest)

/-- The other direction of R81, which the spec derives, on the same reading D1 (log 15): what the decoder reads is well formed and spells exactly the
words it was read from. -/
def Obligations.EncodingADecodedInstructionGivesItsWords : Prop :=
  ∀ (ws rest : List RomWord) (i : Instr), decode ws = .ok (i, rest) → i.wf = true ∧ encode i ++ rest = ws

/-- R79: every first word with any second word is an instruction with an encoding; no word is illegal, and none traps:
its meaning answers a next state in every state. -/
def Obligations.EveryWordIsAnInstruction : Prop :=
  ∀ (w w2 : RomWord) (rest : List RomWord), ∃ i r, decode (w :: w2 :: rest) = .ok (i, r) ∧ i.wf = true ∧
    ∀ s : State, ∃ t, exec i s = .next t

/-- R70: the first word alone decides the length, and two words are taken by 0x00, 0x01 to 0x03, 0x1C and 0x50 to
0x5F. -/
def Obligations.FirstWordDecidesTheLength : Prop :=
  ∀ (w w2 : RomWord) (rest : List RomWord), ∃ i r, decode (w :: w2 :: rest) = .ok (i, r) ∧
    (if w.toNat ≤ 0x03 ∨ w.toNat = 0x1C ∨ (0x50 ≤ w.toNat ∧ w.toNat ≤ 0x5F)
      then i.words = 2 ∧ r = rest else i.words = 1 ∧ r = w2 :: rest)

/-- The class of a first word, as the step finds it and as its instruction has it (R35, which the spec derives). -/
def Obligations.StringClassOfEveryFirstWord : Prop :=
  ∀ w w2 : RomWord, (decodeWords w w2).stringClass = wordClass w ∧
    (wordClass w = .ldi ↔ 0x70 ≤ w.toNat ∧ w.toNat ≤ 0x7F) ∧
    (wordClass w = .lb ↔ (0xC0 ≤ w.toNat ∧ w.toNat ≤ 0xCF) ∨ w.toNat = 0x00)

/-- Sanity: words written out bit by bit from R71, R72 and R73, one or two of each family and format. That a field
between bars is complemented is the spec's reading D1. -/
def Obligations.WrittenOutWordsDecode : Prop :=
  decode [0b11000011#8] = .ok (.lb 3#4, []) ∧
  decode [0b00000000#8, 0b11101111#8] = .ok (.lbl 0x10#8, []) ∧
  decode [0b00110110#8] = .ok (.ld 1#3, []) ∧
  decode [0b01111100#8] = .ok (.ldi 3#4, []) ∧
  decode [0b01101111#8] = .ok (.cys, []) ∧
  decode [0b10000010#8] = .ok (.t 0x02#6, []) ∧
  decode [0b01010011#8, 0b01111010#8] = .ok (.tl 0x37A#12, []) ∧
  decode [0b00000011#8, 0b11111111#8] = .ok (.tml 0x3FF#12, []) ∧
  decode [0b11010000#8] = .ok (.tm 0x10#6, []) ∧
  decode [0b01101010#8] = .ok (.adi 5#4, []) ∧
  decode [0b01100101#8] = .ok (.dc, []) ∧
  decode [0b00011100#8, 0b01000010#8] = .ok (.iol 0x42#8, []) ∧
  decode [0b01000100#8] = .ok (.skbi 4#4, []) ∧
  decode [0b00100110#8] = .ok (.rf1, [])

/-! ### The instruction step (spec/10_state.md)

R36 is the spec's own account of a step (decisions D3 to D7; log 8 to log 11 and log 13), so these statements are derived. -/

/-- R36, R37: when SKIP = 0 and the string rule does not ignore it, the step runs the instruction that the words at P
spell, with P past them, SAGF consumed into `sag_now`, and `LAST` and the model's record of writes (log 28) written after it. Free values are drawn (`d`) only
where there is no ROM. -/
def Obligations.StepRunsTheDecodedInstruction : Prop :=
  ∀ (s : State) (i : Instr) (rest : List RomWord),
    decode [romWord s s.p, romWord (beginStep s) (s.p + 1#12)] = .ok (i, rest) → Executes i.stringClass s →
    ∃ d : Nat,
      ((Memory.read s.rom s.p.toNat).isSome = true →
        (i.words = 1 ∨ (Memory.read s.rom (s.p + 1#12).toNat).isSome = true) → d = 0) ∧
      step s = (match exec i (s.fetched i.words d) with
        | .next t => .next { t with last := i.stringClass, sagNow := false, written := recordWrites i t.written }
        | .fault r => .fault r
        | .refused r => .refused r)

/-- R36: the step never faults and never refuses. The model's record of writes for R218 (log 28) is kept by every step: a
register still recorded as never written holds what it held before. -/
def Obligations.StepAlwaysAnswersANextState : Prop :=
  ∀ s : State, ∃ t, step s = .next t ∧
    (t.written.a = false → s.written.a = false ∧ t.a = s.a) ∧
    (t.written.x = false → s.written.x = false ∧ t.x = s.x) ∧
    (t.written.bu = false → s.written.bu = false ∧ t.bu = s.bu) ∧
    (t.written.bm = false → s.written.bm = false ∧ t.bm = s.bm) ∧
    (t.written.bl = false → s.written.bl = false ∧ t.bl = s.bl) ∧
    (t.written.sa = .never → s.written.sa = .never ∧ t.sa = s.sa) ∧
    (t.written.sb = .never → s.written.sb = .never ∧ t.sb = s.sb) ∧
    (t.written.c = false → s.written.c = false ∧ t.c = s.c) ∧
    (t.written.ff1 = false → s.written.ff1 = false ∧ t.ff1 = s.ff1) ∧
    (t.written.ff2 = false → s.written.ff2 = false ∧ t.ff2 = s.ff2) ∧
    (t.written.doa = false → s.written.doa = false ∧ t.doa = s.doa)

/-- R32, R36, R190: with SKIP = 1 one ROM word is passed over and nothing else happens. -/
def Obligations.SkipIgnoresExactlyOneWord : Prop :=
  ∀ s : State, s.skip = true → ∃ t, step s = .next t ∧
    t.p.toNat = (s.p.toNat + 1) % 4096 ∧ t.skip = false ∧ t.sagf = false ∧ t.sagNow = false ∧
    t.last = (if s.platform.skippedWordCountsInString then wordClass (romWord s s.p) else .none) ∧
    SameExcept [.p, .skip, .sagf, .sagNow, .last, .draws] s t

/-- R236: when a skip lands on the first word of LBL, TL, TML or IOL, the second word runs as an instruction. -/
def Obligations.SecondWordOfASkippedInstructionRuns : Prop :=
  ∀ (s : State) (w w2 w3 : RomWord) (i : Instr) (rest : List RomWord), s.skip = true →
    s.platform.skippedWordCountsInString = false → HoldsRom s s.p w → isTwoWord w = true →
    HoldsRom s (s.p + 1#12) w2 → HoldsRom s (s.p + 2#12) w3 → decode [w2, w3] = .ok (i, rest) →
    ∃ t u, step s = .next t ∧ SameExcept [.p, .skip, .sagf, .sagNow, .last] s t ∧
      exec i { s with p := s.p + 1#12 + BitVec.ofNat 12 i.words, skip := false, sagf := false, sagNow := false,
                      last := .none } = .next u ∧
      step t = .next { u with last := i.stringClass, sagNow := false, written := recordWrites i u.written }

/-- R34, R36: an LDI after an LDI, and an LB or LBL after an LB or LBL, are passed over whole, and stay in the string. -/
def Obligations.StringRuleIgnoresTheWholeInstruction : Prop :=
  ∀ (s : State) (w : RomWord), s.skip = false → HoldsRom s s.p w → s.last = wordClass w → s.last ≠ .none →
    ∃ t, step s = .next t ∧
      t.p.toNat = (s.p.toNat + (if w = 0x00#8 then 2 else 1)) % 4096 ∧ t.sagf = false ∧ t.sagNow = false ∧
      t.last = s.last ∧ SameExcept [.p, .sagf, .sagNow] s t

/-- R37: after an instruction that is no control transfer P holds the address of the ROM word after it, with the
carry across pages and the wrap after 0xFFF. -/
def Obligations.POutsideTransfersAdvancesByTheWordsFetched : Prop :=
  ∀ (s : State) (i : Instr) (rest : List RomWord),
    decode [romWord s s.p, romWord (beginStep s) (s.p + 1#12)] = .ok (i, rest) → Executes i.stringClass s →
    (match i with | .rtn | .rtnsk | .t _ | .tl _ | .tml _ | .tm _ => False | _ => True) →
    ∃ t, step s = .next t ∧ t.p.toNat = (s.p.toNat + i.words) % 4096

/-- R38: every step keeps the invariant. -/
def Obligations.EveryStepKeepsTheInvariant : Prop :=
  ∀ s : State, Inv s → ∃ t, step s = .next t ∧ Inv t

/-- R219: the CPU executes for ever: a run of any length from a state that meets the invariant stops nowhere and ends in
a state that meets it. -/
def Obligations.EveryRunGoesOnAndKeepsTheInvariant : Prop :=
  ∀ (k : Nat) (s : State), Inv s → ∃ t : State, Host.Core.run Sys2Proof.core k s = .next t ∧ Inv t

/-- The invariant and the reset values of R40 and R230 (the spec's decision D14) hold right after reset, on every
platform and with every program in canonical form. The zeros of A, X, B, SA, SB, C, FF1, FF2 and DOA are the model's choice (log 3) and are not stated. -/
def Obligations.ResetMeetsTheInvariant : Prop :=
  ∀ (pf : Platform) (rom : Memory 8) (w : World), Memory.wf rom = true →
    Inv (State.resetWith pf rom w) ∧ AfterReset (State.resetWith pf rom w) ∧
    State.reset = State.resetWith Platform.standard [] { samplesA := [], samplesB := [], replies := [], events := [] }

/-- From any state after reset (R230, the spec's decision D14) the first step fetches at RESET_P and executes what it finds there. -/
def Obligations.FirstStepExecutesTheWordAtResetP : Prop :=
  ∀ (s : State) (w w2 : RomWord) (i : Instr) (rest : List RomWord), AfterReset s →
    HoldsRom s s.platform.resetP w → HoldsRom s (s.platform.resetP + 1#12) w2 → decode [w, w2] = .ok (i, rest) →
    ∃ t, exec i { s with p := s.platform.resetP + BitVec.ofNat 12 i.words, sagNow := false } = .next t ∧
      step s = .next { t with last := i.stringClass, sagNow := false, written := recordWrites i t.written }

/-- R29, R66: no step changes the ROM, nor a parameter of the platform. -/
def Obligations.NoStepChangesTheProgram : Prop :=
  ∀ s : State, ∃ t, step s = .next t ∧ t.rom = s.rom ∧ t.platform = s.platform

/-- R28, R57, R64: a step changes a RAM word only if it executes an EX or EXD, and then only the word at the RAM
address of the step, which receives the old A. -/
def Obligations.OnlyExchangesWriteRam : Prop :=
  ∀ s : State, ∃ t, step s = .next t ∧ ∀ adr : Addr, ramContent t adr ≠ ramContent s adr →
    s.skip = false ∧
    (0x28 ≤ (romWord s s.p).toNat ∧ (romWord s s.p).toNat ≤ 0x2F ∨
      0x38 ≤ (romWord s s.p).toNat ∧ (romWord s s.p).toNat ≤ 0x3F) ∧
    adr.toNat = (if s.sagf then s.bl.toNat else s.b.toNat) ∧ ramContent t adr = some s.a

/-- R190f: SKIP = 1 after a step only if the step executed one of the twelve instructions that can set it. -/
def Obligations.OnlySkipInstructionsSetSkip : Prop :=
  ∀ s : State, ∃ t, step s = .next t ∧ (t.skip = true → s.skip = false ∧
    (match decodeWords (romWord s s.p) (romWord (beginStep s) (s.p + 1#12)) with
      | .skz | .skf1 | .skf2 | .skc | .skbi _ | .incb | .decb | .exd _ | .adi _ | .adsk | .adcsk | .rtnsk => True
      | _ => False))

/-- R33, R239: SAGF = 1 after a step exactly if the step executed SAG. -/
def Obligations.SagfIsSetExactlyBySag : Prop :=
  ∀ s : State, ∃ t, step s = .next t ∧ (t.sagf = true ↔ s.skip = false ∧ romWord s s.p = 0x13#8)

/-- R34, R36, R38d: LAST after a step is the class of the word it fetched, or NONE after a skipped word that does not
count. -/
def Obligations.LastIsTheClassOfTheWordFetched : Prop :=
  ∀ s : State, ∃ t, step s = .next t ∧
    t.last = (if s.skip = true ∧ s.platform.skippedWordCountsInString = false then .none
              else wordClass (romWord s s.p))

/-- R64, R180: a step adds at most one event to the record, after all earlier ones, and only by executing DIA, DIB, DOA
or IOL. -/
def Obligations.OnlyInputOutputAddsAnEvent : Prop :=
  ∀ s : State, ∃ t es, step s = .next t ∧ t.world.events = s.world.events ++ es ∧ es.length ≤ 1 ∧
    (es ≠ [] → s.skip = false ∧
      romWord s s.p ∈ [0x27#8, 0x23#8, 0x1D#8, 0x1C#8])

/-- A run that has ended, by the convention of R219 (the spec's decision D22), stays where it is; the self-transfer leaves SAGF = 0 and LAST = NONE and changes
nothing else. -/
def Obligations.EndedRunStaysAsItIs : Prop :=
  ∀ s : State, Ended s → ∃ t, step s = .next t ∧ Ended t ∧ t.sagf = false ∧ t.last = .none ∧
    t.sagNow = false ∧ SameExcept [.sagf, .last, .sagNow] s t

/-- An instruction placed where the next step fetches it is the one that step runs (log 1). -/
def Obligations.PlacedInstructionIsRunNext : Prop :=
  ∀ (s : State) (nbits w : Nat) (i : Instr), decodeTableWord nbits w = some i →
    ∃ t, exec i ((s.withFetchWord nbits w).fetched i.words 0) = .next t ∧
      step (s.withFetchWord nbits w) =
        .next { t with last := i.stringClass, sagNow := false, written := recordWrites i t.written }

/-! ### State elements and memories (spec/10_state.md, spec/20_memory.md) -/

/-- R39: every instruction answers a next state, and changes no element that the summary table does not list for it. -/
def Obligations.InstructionsWriteOnlyWhatTheTableLists : Prop :=
  ∀ (i : Instr) (s : State), ∃ t, exec i s = .next t ∧ SameExcept (writable i) s t

/-- B = BU*256 + BM*16 + BL (R22, BM by the spec's derivation D2); the RAM address of a step is B, or its low four bits
after a SAG (R56). -/
def Obligations.RamAddressOfAStep : Prop :=
  ∀ s : State, s.b.toNat = s.bu.toNat * 256 + s.bm.toNat * 16 + s.bl.toNat ∧
    (ramAddr s).toNat = (if s.sagNow then s.b.toNat % 16 else s.b.toNat)

/-- R54: what EX stores is what every later read of that populated address gives, by whichever address B holds then. -/
def Obligations.StoredWordIsReadBack : Prop :=
  ∀ (s : State) (n : BitVec 3), ramPopulated s (ramAddr s) = true → ∃ t, exec (.ex n) s = .next t ∧
    (∀ u : State, u.ram = t.ram → u.platform = t.platform → ramAddr u = ramAddr s → ramOperand u = s.a) ∧
    (∀ (u : State) (v : Nibble), u.ram = t.ram → u.platform = t.platform → ramAddr u ≠ ramAddr s →
      ramContent s (ramAddr u) = some v → ramOperand u = v)

/-- At an address outside RAM_POPULATED EX loses its write and loads an unspecified value, here the next free one (R55,
the spec's decision D18; log 5). -/
def Obligations.UnpopulatedRamLosesWrites : Prop :=
  ∀ (s : State) (n : BitVec 3), ramPopulated s (ramAddr s) = false →
    ∃ t, exec (.ex n) s = .next t ∧ t.ram = s.ram ∧ t.a = Config.freeRamWord s.draws (ramAddr s) ∧
      t.draws = s.draws + 1

/-- Canonical memories with the same content are the same data: the model's form of a memory (log 6). -/
def Obligations.CanonicalMemoriesAreDeterminedByContent : Prop :=
  ∀ m m' : Memory 4, Memory.wf m = true → Memory.wf m' = true →
    (∀ n, Memory.read m n = Memory.read m' n) → m = m'

/-! ### Data address (spec/40_data_address.md) -/

/-- R100: LB. That the table word is complemented is the spec's reading D1 (log 15), and that an LB ignored by the string
rule leaves SB alone its decision D6 (log 10); the value and the draw where the table word has no ROM are the model's
choice (log 4, log 19). -/
def Obligations.LbLoadsBFromThePageThreeTable : Prop :=
  ∀ i : Nibble, CodedAs (.lb i) [BitVec.ofNat 8 (0xC0 + i.toNat)] 2 ∧
    (∀ s : State, ∃ t, exec (.lb i) s = .next t ∧
      t.b.toNat = 255 - (romWord s (BitVec.ofNat 12 (0x0C0 + i.toNat))).toNat ∧ t.sb = s.p ∧
      SameExcept [.bu, .bm, .bl, .sb, .draws] s t ∧
      ((Memory.read s.rom (0x0C0 + i.toNat)).isSome = true → t.draws = s.draws)) ∧
    (∀ s : State, s.skip = false → HoldsRom s s.p (BitVec.ofNat 8 (0xC0 + i.toNat)) → s.last = .lb →
      ∃ t, step s = .next t ∧ t.p.toNat = (s.p.toNat + 1) % 4096 ∧ t.last = .lb ∧ t.sagf = false ∧
        t.sagNow = false ∧ SameExcept [.p, .sagf, .sagNow] s t)

/-- R101: LBL. That the second word is complemented is the spec's reading C1, C5, D1 (log 15), and that an ignored LBL is
passed over whole its decision D6 (log 10). -/
def Obligations.LblLoadsBFromItsSecondWord : Prop :=
  ∀ v : RomWord, CodedAs (.lbl v) [0x00#8, BitVec.ofNat 8 (255 - v.toNat)] 2 ∧
    (∀ s : State, ∃ t, exec (.lbl v) s = .next t ∧ t.b.toNat = v.toNat ∧ SameExcept [.bu, .bm, .bl] s t) ∧
    (∀ s : State, s.skip = false → HoldsRom s s.p 0x00#8 → s.last = .lb →
      ∃ t, step s = .next t ∧ t.p.toNat = (s.p.toNat + 2) % 4096 ∧ t.last = .lb ∧ t.sagf = false ∧
        t.sagNow = false ∧ SameExcept [.p, .sagf, .sagNow] s t)

/-- R102: SAG arms the next step, which uses up its effect; B keeps its value in both. That the "next cycle" is the next
step is the spec's decision D7 (log 11). -/
def Obligations.SagZeroesTheUpperAddressBitsOfTheNextStep : Prop :=
  CodedAs .sag [0x13#8] 1 ∧
  (∀ s : State, ∃ t, exec .sag s = .next t ∧ t.sagf = true ∧ SameExcept [.sagf] s t) ∧
  (∀ (s : State) (n d : Nat), s.sagf = true →
    (ramAddr (s.fetched n d)).toNat = s.bl.toNat ∧ (s.fetched n d).sagf = false ∧ (s.fetched n d).b = s.b)

/-- R103, R106: LABL and XABL. -/
def Obligations.LablAndXablMoveBetweenAAndBl : Prop :=
  CodedAs .labl [0x11#8] 1 ∧ CodedAs .xabl [0x19#8] 1 ∧
  ∀ s : State,
    (∃ t, exec .labl s = .next t ∧ t.a = s.bl ∧ SameExcept [.a] s t) ∧
    (∃ t, exec .xabl s = .next t ∧ t.a = s.bl ∧ t.bl = s.a ∧ SameExcept [.a, .bl] s t)

/-- R104, R105: INCB and DECB. That the wrap changes nothing above BL is the spec's derivation. -/
def Obligations.IncbAndDecbStepBlAndSkipOnTheWrap : Prop :=
  CodedAs .incb [0x17#8] 1 ∧ CodedAs .decb [0x1F#8] 1 ∧
  ∀ s : State,
    (∃ t, exec .incb s = .next t ∧ t.bl.toNat = (s.bl.toNat + 1) % 16 ∧
      (t.skip = true ↔ s.skip = true ∨ t.bl.toNat = 0) ∧ (t.bl.toNat = 0 ↔ s.bl.toNat = 15) ∧
      SameExcept [.bl, .skip] s t) ∧
    (∃ t, exec .decb s = .next t ∧ t.bl.toNat = (s.bl.toNat + 15) % 16 ∧
      (t.skip = true ↔ s.skip = true ∨ t.bl.toNat = 15) ∧ (t.bl.toNat = 15 ↔ s.bl.toNat = 0) ∧
      SameExcept [.bl, .skip] s t)

/-- R107: LBUA reads RAM at the address with the old BU, which is the spec's decision D8 (log 12); the value and the draw at an
unpopulated address are the model's choice (log 5, log 19). -/
def Obligations.LbuaLoadsBuAndReadsAtTheOldAddress : Prop :=
  CodedAs .lbua [0x04#8] 1 ∧
  ∀ s : State, ∃ t, exec .lbua s = .next t ∧ t.bu = s.a ∧ t.a = ramWord s (ramAddr s) ∧
    t.b.toNat = s.a.toNat * 256 + s.b.toNat % 256 ∧ SameExcept [.a, .bu, .draws] s t ∧
    (ramPopulated s (ramAddr s) = true → t.draws = s.draws)

/-- R108, R109: LBMX and XBMX. -/
def Obligations.LbmxAndXbmxMoveBetweenXAndBm : Prop :=
  CodedAs .lbmx [0x10#8] 1 ∧ CodedAs .xbmx [0x18#8] 1 ∧
  ∀ s : State,
    (∃ t, exec .lbmx s = .next t ∧ t.bm = s.x ∧ SameExcept [.bm] s t) ∧
    (∃ t, exec .xbmx s = .next t ∧ t.bm = s.x ∧ t.x = s.bm ∧ SameExcept [.x, .bm] s t)

/-! ### Data transfer (spec/41_data_transfer.md) -/

/-- R120: CYS, with all right-hand sides old values: the spec's decision D11 (log 14). -/
def Obligations.CysRotatesSaThroughA : Prop :=
  CodedAs .cys [0x6F#8] 1 ∧
  ∀ s : State, ∃ t, exec .cys s = .next t ∧ t.a.toNat = s.sa.toNat % 16 ∧
    t.sa.toNat = s.a.toNat * 256 + s.sa.toNat / 16 ∧ SameExcept [.a, .sa] s t

/-- R120, corner case, on the same decision D11: four CYS in a row restore both A and SA. -/
def Obligations.FourCysRestoreAAndSa : Prop :=
  ∀ s : State, ∃ t1 t2 t3, exec .cys s = .next t1 ∧ exec .cys t1 = .next t2 ∧ exec .cys t2 = .next t3 ∧
    exec .cys t3 = .next s

/-- R121: LD. That the field is stored complemented is the spec's reading D1 (log 15); the value and the draw at an
unpopulated address are the model's choice (log 5, log 19). -/
def Obligations.LdLoadsAAndStepsB : Prop :=
  ∀ n : BitVec 3, CodedAs (.ld n) [BitVec.ofNat 8 (0x30 + (7 - n.toNat))] 1 ∧
    ∀ s : State, ∃ t, exec (.ld n) s = .next t ∧ t.a = ramWord s (ramAddr s) ∧
      t.b.toNat = s.b.toNat ^^^ (n.toNat * 16) ∧ SameExcept [.a, .bm, .draws] s t ∧
      (ramPopulated s (ramAddr s) = true → t.draws = s.draws)

/-- R122: EX, with the RAM word it writes and every other one. That the field is stored complemented is the
spec's reading D1 (log 15), and the write address its decision D28 (log 12); the value and the draw at an
unpopulated address are the model's choice (log 5, log 19). -/
def Obligations.ExExchangesAWithMemoryAndStepsB : Prop :=
  ∀ n : BitVec 3, CodedAs (.ex n) [BitVec.ofNat 8 (0x38 + (7 - n.toNat))] 1 ∧
    ∀ s : State, ∃ t, exec (.ex n) s = .next t ∧ t.a = ramWord s (ramAddr s) ∧
      (ramPopulated s (ramAddr s) = true → ramContent t (ramAddr s) = some s.a ∧ t.draws = s.draws) ∧
      (∀ adr : Addr, adr ≠ ramAddr s → ramContent t adr = ramContent s adr) ∧
      t.b.toNat = s.b.toNat ^^^ (n.toNat * 16) ∧ SameExcept [.a, .bm, .ram, .draws] s t

/-- R123: EXD. That the field is stored complemented is the spec's reading D1 (log 15), and the write address its decision
D28 (log 12); the value and the draw at an
unpopulated address are the model's choice (log 5, log 19). -/
def Obligations.ExdExchangesStepsBAndDecrementsBl : Prop :=
  ∀ n : BitVec 3, CodedAs (.exd n) [BitVec.ofNat 8 (0x28 + (7 - n.toNat))] 1 ∧
    ∀ s : State, ∃ t, exec (.exd n) s = .next t ∧ t.a = ramWord s (ramAddr s) ∧
      (ramPopulated s (ramAddr s) = true → ramContent t (ramAddr s) = some s.a ∧ t.draws = s.draws) ∧
      (∀ adr : Addr, adr ≠ ramAddr s → ramContent t adr = ramContent s adr) ∧
      t.b.toNat = ((s.b.toNat ^^^ (n.toNat * 16)) / 16) * 16 + (s.bl.toNat + 15) % 16 ∧
      (t.skip = true ↔ s.skip = true ∨ s.bl.toNat = 0) ∧ SameExcept [.a, .bm, .bl, .ram, .skip, .draws] s t

/-- R124 to R127: XS, XAX, LAX and LXA. -/
def Obligations.RegisterTransfersAndExchanges : Prop :=
  CodedAs .xs [0x06#8] 1 ∧ CodedAs .xax [0x1A#8] 1 ∧ CodedAs .lax [0x12#8] 1 ∧ CodedAs .lxa [0x1B#8] 1 ∧
  ∀ s : State,
    (∃ t, exec .xs s = .next t ∧ t.sa = s.sb ∧ t.sb = s.sa ∧ SameExcept [.sa, .sb] s t) ∧
    (∃ t, exec .xax s = .next t ∧ t.a = s.x ∧ t.x = s.a ∧ SameExcept [.a, .x] s t) ∧
    (∃ t, exec .lax s = .next t ∧ t.a = s.x ∧ SameExcept [.a] s t) ∧
    (∃ t, exec .lxa s = .next t ∧ t.x = s.a ∧ SameExcept [.x] s t)

/-- R128: LDI, executed, and ignored after another LDI. That the field is stored complemented is the spec's reading D1
(log 15), and what an ignored LDI leaves alone is its decision D6 (log 10); the record of writes is the model's (log 28). -/
def Obligations.LdiLoadsAExceptAfterAnLdi : Prop :=
  ∀ n : Nibble, CodedAs (.ldi n) [BitVec.ofNat 8 (0x70 + (15 - n.toNat))] 1 ∧
    (∀ s : State, ∃ t, exec (.ldi n) s = .next t ∧ t.a = n ∧ SameExcept [.a] s t) ∧
    (∀ s : State, s.skip = false → HoldsRom s s.p (BitVec.ofNat 8 (0x70 + (15 - n.toNat))) →
      ∃ t, step s = .next t ∧ t.p.toNat = (s.p.toNat + 1) % 4096 ∧ t.last = .ldi ∧ t.sagf = false ∧
        t.sagNow = false ∧ t.a = (if s.last = .ldi then s.a else n) ∧
        t.written = (if s.last = .ldi then s.written else { s.written with a := true }) ∧
        SameExcept [.a, .p, .last, .sagf, .sagNow, .written] s t)

/-! ### Control transfer (spec/42_control_transfer.md) -/

/-- R141, R142: RTN and RTNSK. After RTNSK the next step ignores the word at the return address: the flag
SKIP in place of the source's `P<-P+1` is the spec's own form D29 (log 13). -/
def Obligations.ReturnsPopTheStack : Prop :=
  CodedAs .rtn [0x05#8] 1 ∧ CodedAs .rtnsk [0x07#8] 1 ∧
  ∀ s : State,
    (∃ t, exec .rtn s = .next t ∧ t.p = s.sa ∧ t.sa = s.sb ∧ t.sb = s.sa ∧ SameExcept [.p, .sa, .sb] s t) ∧
    (∃ t, exec .rtnsk s = .next t ∧ t.p = s.sa ∧ t.sa = s.sb ∧ t.sb = s.sa ∧ t.skip = true ∧
      SameExcept [.p, .sa, .sb, .skip] s t ∧
      ∃ u, step { t with last := .none, sagNow := false } = .next u ∧ u.p.toNat = (s.sa.toNat + 1) % 4096 ∧
        u.skip = false)

/-- R143: T replaces the low six bits of the advanced P, at a page end too: the spec's decision D9 (log 9). -/
def Obligations.TransferStaysInThePageOfTheNextWord : Prop :=
  ∀ field : BitVec 6, CodedAs (.t field) [BitVec.ofNat 8 (0x80 + field.toNat)] 1 ∧
    ∀ s : State, ∃ t, exec (.t field) s = .next t ∧ t.p.toNat = s.p.toNat / 64 * 64 + field.toNat ∧
      SameExcept [.p] s t

/-- R144: TL. -/
def Obligations.TlTransfersAnywhere : Prop :=
  ∀ target : Addr,
    CodedAs (.tl target) [BitVec.ofNat 8 (0x50 + target.toNat / 256), BitVec.ofNat 8 (target.toNat % 256)] 2 ∧
    ∀ s : State, ∃ t, exec (.tl target) s = .next t ∧ t.p = target ∧ SameExcept [.p] s t

/-- R145: TML, for the targets 0x100 to 0x3FF it can name. P is past the second word, so SA receives the address after
it: the spec's decision D10 (log 8). -/
def Obligations.TmlCallsAndSavesTheAddressAfterItsSecondWord : Prop :=
  ∀ target : Addr, 0x100 ≤ target.toNat → target.toNat ≤ 0x3FF →
    CodedAs (.tml target) [BitVec.ofNat 8 (target.toNat / 256), BitVec.ofNat 8 (target.toNat % 256)] 2 ∧
    ∀ s : State, ∃ t, exec (.tml target) s = .next t ∧ t.p = target ∧ t.sa = s.p ∧ t.sb = s.sa ∧
      SameExcept [.p, .sa, .sb] s t

/-- R146: TM, for the pointer indexes 0x10 to 0x3F it can name. The pointer address is the spec's reading C3, D13 (log 15);
the value and the draw where the pointer word has no ROM are the model's choice (log 4, log 19). -/
def Obligations.TmCallsThroughThePageThreePointer : Prop :=
  ∀ k : BitVec 6, 0x10 ≤ k.toNat → CodedAs (.tm k) [BitVec.ofNat 8 (0xC0 + k.toNat)] 2 ∧
    ∀ s : State, ∃ t, exec (.tm k) s = .next t ∧
      t.p.toNat = 0x100 + (romWord s (BitVec.ofNat 12 (0x0C0 + k.toNat))).toNat ∧ t.sa = s.p ∧ t.sb = s.sa ∧
      SameExcept [.p, .sa, .sb, .draws] s t ∧
      ((Memory.read s.rom (0x0C0 + k.toNat)).isSome = true → t.draws = s.draws)

/-- R24, and R235 by the spec's derivation: two nested calls return in turn to the words after them; a third call loses the oldest address. -/
def Obligations.ReturnStackIsTwoDeep : Prop :=
  ∀ (s : State) (e1 e2 e3 r2 r3 : Addr), ∃ c1 c2 c3 u1 u2 v1,
    exec (.tml e1) s = .next c1 ∧ exec (.tml e2) { c1 with p := r2 } = .next c2 ∧
    exec .rtn c2 = .next u1 ∧ u1.p = r2 ∧ exec .rtn u1 = .next u2 ∧ u2.p = s.p ∧
    exec (.tml e3) { c2 with p := r3 } = .next c3 ∧ c3.sa = r3 ∧ c3.sb = r2 ∧
    exec .rtn c3 = .next v1 ∧ v1.p = r3 ∧ v1.sa = r2 ∧ v1.sb = r3

/-! ### Arithmetic and logic (spec/43_arithmetic_logic.md) -/

/-- R161 to R164: AD, ADC, ADSK and ADCSK, whose results differ only in the carry-in and the skip. The value and the draw at
an unpopulated address are the model's choice (log 5, log 19). -/
def Obligations.AdditionsLoadAAndC : Prop :=
  CodedAs .ad [0x0B#8] 1 ∧ CodedAs .adc [0x0A#8] 1 ∧ CodedAs .adcsk [0x08#8] 1 ∧ CodedAs .adsk [0x09#8] 1 ∧
  ∀ (i : Instr) (s : State), i ∈ [Instr.ad, .adc, .adcsk, .adsk] → ∃ t sum,
    sum = s.a.toNat + (ramWord s (ramAddr s)).toNat +
      (if (i = .adc ∨ i = .adcsk) ∧ s.c = true then 1 else 0) ∧
    exec i s = .next t ∧ t.a.toNat = sum % 16 ∧ t.c.toNat = sum / 16 ∧
    (t.skip = true ↔ s.skip = true ∨ ((i = .adsk ∨ i = .adcsk) ∧ 16 ≤ sum)) ∧
    SameExcept [.a, .c, .skip, .draws] s t ∧ (ramPopulated s (ramAddr s) = true → t.draws = s.draws)

/-- R165 to R168: AND, OR and EOR act bit by bit on A and M, COMP on A alone. The value and the draw at an unpopulated
address are the model's choice (log 5, log 19). -/
def Obligations.LogicActsBitByBit : Prop :=
  CodedAs .and [0x0D#8] 1 ∧ CodedAs .or [0x0F#8] 1 ∧ CodedAs .eor [0x0C#8] 1 ∧ CodedAs .comp [0x0E#8] 1 ∧
  ∀ s : State,
    (∃ t, exec .and s = .next t ∧ t.a.toNat = s.a.toNat &&& (ramWord s (ramAddr s)).toNat ∧
      SameExcept [.a, .draws] s t ∧ (ramPopulated s (ramAddr s) = true → t.draws = s.draws)) ∧
    (∃ t, exec .or s = .next t ∧ t.a.toNat = s.a.toNat ||| (ramWord s (ramAddr s)).toNat ∧
      SameExcept [.a, .draws] s t ∧ (ramPopulated s (ramAddr s) = true → t.draws = s.draws)) ∧
    (∃ t, exec .eor s = .next t ∧ t.a.toNat = s.a.toNat ^^^ (ramWord s (ramAddr s)).toNat ∧
      SameExcept [.a, .draws] s t ∧ (ramPopulated s (ramAddr s) = true → t.draws = s.draws)) ∧
    (∃ t, exec .comp s = .next t ∧ t.a.toNat = 15 - s.a.toNat ∧ SameExcept [.a] s t)

/-- R169: ADI, for the operands it can encode. That the field is stored complemented, and that the excluded 0 and 10 are
effective values, is the spec's reading C1, D1 (log 15). -/
def Obligations.AdiAddsAndSkipsOnCarryOut : Prop :=
  ∀ n : Nibble, n ≠ 0#4 → n ≠ 10#4 → CodedAs (.adi n) [BitVec.ofNat 8 (0x60 + (15 - n.toNat))] 1 ∧
    ∀ s : State, ∃ t, exec (.adi n) s = .next t ∧ t.a.toNat = (s.a.toNat + n.toNat) % 16 ∧
      (t.skip = true ↔ s.skip = true ∨ 16 ≤ s.a.toNat + n.toNat) ∧ SameExcept [.a, .skip] s t

/-- R170: DC adds ten, never skips and leaves C alone: the prose against the operation line, by the spec's resolution C2 and
decision D12 (log 16). -/
def Obligations.DcAddsTenAndNeverSkips : Prop :=
  CodedAs .dc [0x65#8] 1 ∧
  ∀ s : State, ∃ t, exec .dc s = .next t ∧ t.a.toNat = (s.a.toNat + 10) % 16 ∧ SameExcept [.a] s t

/-- R160e, the spec's derivation, on D12 (log 16), and on log 5 where the RAM word is unpopulated: for digits `a`, `m` and the carry C, `ADI 6; ADCSK; DC`, DC skipped when ADCSK skips, leaves the decimal sum
digit in A and the decimal carry in C, and ADI 6 does not skip. -/
def Obligations.DecimalAdditionIdiom : Prop :=
  ∀ s : State, s.skip = false → s.a.toNat ≤ 9 → (ramWord s (ramAddr s)).toNat ≤ 9 →
    ∃ t1 t2 t3, exec (.adi 6#4) s = .next t1 ∧ t1.skip = false ∧ exec .adcsk t1 = .next t2 ∧
      exec .dc t2 = .next t3 ∧
      (if t2.skip then t2 else t3).a.toNat = (s.a.toNat + (ramWord s (ramAddr s)).toNat + s.c.toNat) % 10 ∧
      (if t2.skip then t2 else t3).c.toNat = (s.a.toNat + (ramWord s (ramAddr s)).toNat + s.c.toNat) / 10

/-- R160d, the spec's derivation, and log 5 where the RAM word is unpopulated: `SC; COMP; ADC` leaves M - A modulo 16 in A, and C = 1 exactly when M >= A. -/
def Obligations.SubtractionIdiom : Prop :=
  ∀ s : State, ∃ t1 t2 t3,
    exec .sc s = .next t1 ∧ exec .comp t1 = .next t2 ∧ exec .adc t2 = .next t3 ∧
    t3.a = ramWord s (ramAddr s) - s.a ∧ (t3.c = true ↔ s.a.toNat ≤ (ramWord s (ramAddr s)).toNat)

/-! ### Input and output (spec/44_input_output.md) -/

/-- R181, R182: DIA and DIB load the value the environment supplies, and the event is recorded (R180, the spec's decision
D20). Where the run fixes no sample, the value is a free one (log 7, log 19). -/
def Obligations.DiscreteInputsLoadA : Prop :=
  CodedAs .dia [0x27#8] 1 ∧ CodedAs .dib [0x23#8] 1 ∧
  ∀ s : State,
    (∃ t, exec .dia s = .next t ∧ t.world.events = s.world.events ++ [.discreteIn .a t.a] ∧
      t.a = s.world.samplesA.headD (Config.freeDiscreteIn .a s.draws) ∧
      t.world.samplesA = s.world.samplesA.tail ∧ t.world.samplesB = s.world.samplesB ∧
      t.world.replies = s.world.replies ∧ t.draws = s.draws + (if s.world.samplesA = [] then 1 else 0) ∧
      SameExcept [.a, .world, .draws] s t) ∧
    (∃ t, exec .dib s = .next t ∧ t.world.events = s.world.events ++ [.discreteIn .b t.a] ∧
      t.a = s.world.samplesB.headD (Config.freeDiscreteIn .b s.draws) ∧
      t.world.samplesB = s.world.samplesB.tail ∧ t.world.samplesA = s.world.samplesA ∧
      t.world.replies = s.world.replies ∧ t.draws = s.draws + (if s.world.samplesB = [] then 1 else 0) ∧
      SameExcept [.a, .world, .draws] s t)

/-- R183: DOA, with the event of R180 (the spec's decision D20). That it does nothing else holds of a PPS-4; for the variant
PPS-4/2 it is the model's reading (D24, log 23), which R183 does not support. -/
def Obligations.DoaLoadsTheOutputRegister : Prop :=
  CodedAs .doa [0x1D#8] 1 ∧
  ∀ s : State, ∃ t, exec .doa s = .next t ∧ t.doa = s.a ∧
    t.world = { s.world with events := s.world.events ++ [.discreteOut s.a] } ∧ SameExcept [.doa, .world] s t

/-- R184: IOL sends the old A inverted and receives the reply inverted, in one recorded transaction (R180, the spec's
decision D20; log 7, log 19). -/
def Obligations.IolExchangesAWithTheDeviceInverted : Prop :=
  ∀ cmd : RomWord, CodedAs (.iol cmd) [0x1C#8, cmd] 2 ∧
    ∀ s : State, ∃ t out reply, exec (.iol cmd) s = .next t ∧ out.toNat = 15 - s.a.toNat ∧
      t.a.toNat = 15 - reply.toNat ∧ t.world.events = s.world.events ++ [.ioTransact cmd out reply] ∧
      reply = s.world.replies.headD (Config.freeBusReply s.draws cmd out) ∧
      t.world.replies = s.world.replies.tail ∧ t.world.samplesA = s.world.samplesA ∧
      t.world.samplesB = s.world.samplesB ∧ t.draws = s.draws + (if s.world.replies = [] then 1 else 0) ∧
      SameExcept [.a, .world, .draws] s t

/-! ### Skips and flip-flops (spec/45_skip_and_flags.md) -/

/-- R191 to R195: the five conditional skips set SKIP exactly on their conditions and change nothing else. That SKBI's field
is used as stored is the spec's reading D1, U5 (log 15, unsafe for SKBI). -/
def Obligations.ConditionalSkips : Prop :=
  CodedAs .skz [0x1E#8] 1 ∧ CodedAs .skf2 [0x14#8] 1 ∧ CodedAs .skf1 [0x16#8] 1 ∧ CodedAs .skc [0x15#8] 1 ∧
  (∀ n : Nibble, CodedAs (.skbi n) [BitVec.ofNat 8 (0x40 + n.toNat)] 1) ∧
  ∀ s : State,
    (∃ t, exec .skz s = .next t ∧ (t.skip = true ↔ s.skip = true ∨ s.a.toNat = 0) ∧ SameExcept [.skip] s t) ∧
    (∃ t, exec .skf2 s = .next t ∧ (t.skip = true ↔ s.skip = true ∨ s.ff2 = true) ∧ SameExcept [.skip] s t) ∧
    (∃ t, exec .skf1 s = .next t ∧ (t.skip = true ↔ s.skip = true ∨ s.ff1 = true) ∧ SameExcept [.skip] s t) ∧
    (∃ t, exec .skc s = .next t ∧ (t.skip = true ↔ s.skip = true ∨ s.c = true) ∧ SameExcept [.skip] s t) ∧
    (∀ n : Nibble, ∃ t, exec (.skbi n) s = .next t ∧
      (t.skip = true ↔ s.skip = true ∨ s.b.toNat % 16 = n.toNat) ∧ SameExcept [.skip] s t)

/-- R196 to R201: the six instructions that set or reset a flip-flop. -/
def Obligations.FlipFlopInstructions : Prop :=
  CodedAs .rf1 [0x26#8] 1 ∧ CodedAs .sf1 [0x22#8] 1 ∧ CodedAs .sf2 [0x21#8] 1 ∧ CodedAs .sc [0x20#8] 1 ∧
  CodedAs .rc [0x24#8] 1 ∧ CodedAs .rf2 [0x25#8] 1 ∧
  ∀ s : State,
    (∃ t, exec .rf1 s = .next t ∧ t.ff1 = false ∧ SameExcept [.ff1] s t) ∧
    (∃ t, exec .sf1 s = .next t ∧ t.ff1 = true ∧ SameExcept [.ff1] s t) ∧
    (∃ t, exec .sf2 s = .next t ∧ t.ff2 = true ∧ SameExcept [.ff2] s t) ∧
    (∃ t, exec .sc s = .next t ∧ t.c = true ∧ SameExcept [.c] s t) ∧
    (∃ t, exec .rc s = .next t ∧ t.c = false ∧ SameExcept [.c] s t) ∧
    (∃ t, exec .rf2 s = .next t ∧ t.ff2 = false ∧ SameExcept [.ff2] s t)
end

