-- ==== Sys2Proof/Laws/Decode.lean ====
section
/-! SUPPORT. What the decoder and the encoder do, said once each: fields of a word put together from fields, the words of
the two-word instructions, and that the second word matters to no other instruction. -/

namespace Sys2Proof

/-! ### Fields -/

@[simp] theorem romField_low4 (t h : Nibble) : romField (t ++ h) 1 4 = h := by revert t h; decide

@[simp] theorem romField_high4 (t h : Nibble) : romField (t ++ h) 5 4 = t := by revert t h; decide

/-- A 12-bit address is its top digit and its low eight bits (R60b). -/
theorem addr_split (a : Addr) : a.extractLsb' 8 4 ++ a.extractLsb' 0 8 = a := by
  apply BitVec.eq_of_toNat_eq
  have ha := a.isLt
  have hl : (a.extractLsb' 0 8).toNat < 2 ^ 8 := (a.extractLsb' 0 8).isLt
  rw [BitVec.toNat_append, ← Nat.shiftLeft_add_eq_or_of_lt hl]
  simp only [Nat.shiftLeft_eq, BitVec.extractLsb'_toNat, Nat.shiftRight_eq_div_pow]; omega

@[simp] theorem addr_high (h : Nibble) (l : RomWord) : (h ++ l).extractLsb' 8 4 = h := by
  apply BitVec.eq_of_toNat_eq
  have hh := h.isLt; have hl := l.isLt
  rw [BitVec.extractLsb'_toNat, BitVec.toNat_append, ← Nat.shiftLeft_add_eq_or_of_lt hl]
  simp only [Nat.shiftLeft_eq, Nat.shiftRight_eq_div_pow]; omega

@[simp] theorem addr_low (h : Nibble) (l : RomWord) : (h ++ l).extractLsb' 0 8 = l := by
  apply BitVec.eq_of_toNat_eq
  have hh := h.isLt; have hl := l.isLt
  rw [BitVec.extractLsb'_toNat, BitVec.toNat_append, ← Nat.shiftLeft_add_eq_or_of_lt hl]
  simp only [Nat.shiftLeft_eq, Nat.shiftRight_eq_div_pow]; omega

/-! ### Length -/

theorem decode_twoWord {w : RomWord} (h : isTwoWord w = true) (w2 : RomWord) (rest : List RomWord) :
    decode (w :: w2 :: rest) = .ok (decodeWords w w2, rest) := by simp [decode, h]

theorem decode_oneWord {w : RomWord} (h : isTwoWord w = false) (rest : List RomWord) :
    decode (w :: rest) = .ok (decodeWords w 0x00#8, rest) := by simp [decode, h]

theorem low_ne_of_oneWord {w : RomWord} (h : isTwoWord w = false) :
    w.toNat ≠ 0 ∧ w.toNat ≠ 1 ∧ w.toNat ≠ 2 ∧ w.toNat ≠ 3 ∧ w.toNat ≠ 0x1C := by
  revert w; decide

/-- The second word matters only to LBL, TML, IOL and TL (R77). -/
theorem decodeWords_of_oneWord {w : RomWord} (h : isTwoWord w = false) (w2 w2' : RomWord) :
    decodeWords w w2 = decodeWords w w2' := by
  have htl : romField w 5 4 ≠ 0b0101#4 := fun e => by simp [isTwoWord, e] at h
  have hlow : decodeLow w w2 = decodeLow w w2' := by
    have := low_ne_of_oneWord h
    unfold decodeLow
    split <;> first | rfl | omega
  simp only [decodeWords, if_neg htl, hlow]

/-- What `decode` makes of a word and the word after it is `decodeWords` of both. -/
theorem decode_eq_ok {w w2 : RomWord} {rest r : List RomWord} {i : Instr}
    (h : decode (w :: w2 :: rest) = .ok (i, r)) : i = decodeWords w w2 := by
  by_cases hw : isTwoWord w = true
  · rw [decode_twoWord hw] at h; cases h; rfl
  · rw [decode_oneWord (by simpa using hw)] at h; cases h
    exact decodeWords_of_oneWord (by simpa using hw) _ _

/-! ### The two-word instructions -/

theorem decodeWords_lbl (w2 : RomWord) : decodeWords 0x00#8 w2 = .lbl (~~~w2) := rfl

theorem decodeWords_iol (w2 : RomWord) : decodeWords 0x1C#8 w2 = .iol w2 := rfl

theorem decodeWords_tml {h : Nibble} (h1 : 1 ≤ h.toNat) (h3 : h.toNat ≤ 3) (w2 : RomWord) :
    decodeWords (0b0000#4 ++ h) w2 = .tml (h ++ w2) := by
  have fields : ∀ h : Nibble, romField (0b0000#4 ++ h) 7 2 ≠ 0b10#2 ∧ romField (0b0000#4 ++ h) 7 2 ≠ 0b11#2 ∧
      romField (0b0000#4 ++ h) 4 5 ≠ 0b00111#5 ∧ romField (0b0000#4 ++ h) 4 5 ≠ 0b00110#5 ∧
      romField (0b0000#4 ++ h) 4 5 ≠ 0b00101#5 ∧ (0b0000#4 ++ h).toNat = h.toNat := by decide
  obtain ⟨f1, f2, f3, f4, f5, hn⟩ := fields h
  have digit : h.toNat = 1 ∨ h.toNat = 2 ∨ h.toNat = 3 := by omega
  simp only [decodeWords, f1, f2, f3, f4, f5, romField_high4, if_false, BitVec.reduceEq, decodeLow]
  obtain e | e | e := digit <;> simp only [hn, e, romField_low4]

theorem decodeWords_tl (h : Nibble) (w2 : RomWord) : decodeWords (0b0101#4 ++ h) w2 = .tl (h ++ w2) := by
  have top : ∀ h : Nibble, romField (0b0101#4 ++ h) 7 2 ≠ 0b10#2 ∧ romField (0b0101#4 ++ h) 7 2 ≠ 0b11#2 := by decide
  simp [decodeWords, top h]

/-- A first word of two-word length is 0x00, 0x1C, or a digit after `0000` (1 to 3) or `0101`. -/
theorem twoWord_cases {w : RomWord} (h : isTwoWord w = true) :
    w = 0x00#8 ∨ w = 0x1C#8 ∨ (∃ d : Nibble, 1 ≤ d.toNat ∧ d.toNat ≤ 3 ∧ w = 0b0000#4 ++ d) ∨
      ∃ d : Nibble, w = 0b0101#4 ++ d := by
  revert w; decide

/-- A statement about what the decoder reads holds if it holds of the four two-word instructions and, by evaluation, of
every one-word first word. -/
theorem decodeWords_induction {P : RomWord → Instr → Prop} (lbl : ∀ v, P 0x00#8 (.lbl v)) (iol : ∀ v, P 0x1C#8 (.iol v))
    (tml : ∀ (d : Nibble) (v : RomWord), 1 ≤ d.toNat → d.toNat ≤ 3 → P (0b0000#4 ++ d) (.tml (d ++ v)))
    (tl : ∀ (d : Nibble) (v : RomWord), P (0b0101#4 ++ d) (.tl (d ++ v)))
    (one : ∀ w, isTwoWord w = false → P w (decodeWords w 0x00#8)) (w w2 : RomWord) : P w (decodeWords w w2) := by
  by_cases h : isTwoWord w = true
  · obtain rfl | rfl | ⟨d, h1, h3, rfl⟩ | ⟨d, rfl⟩ := twoWord_cases h
    · exact lbl _
    · exact iol _
    · rw [decodeWords_tml h1 h3]; exact tml d w2 h1 h3
    · rw [decodeWords_tl]; exact tl d w2
  · have h0 : isTwoWord w = false := by simpa using h
    rw [decodeWords_of_oneWord h0 w2 0x00#8]; exact one w h0

theorem words_decodeWords (w w2 : RomWord) : (decodeWords w w2).words = if isTwoWord w then 2 else 1 :=
  decodeWords_induction (P := fun w i => i.words = if isTwoWord w then 2 else 1) (fun _ => rfl) (fun _ => rfl)
    (fun d _ _ h => ((by decide : ∀ d : Nibble, d.toNat ≤ 3 → 2 = if isTwoWord (0b0000#4 ++ d) then 2 else 1) d h))
    (fun d _ => (by decide : ∀ d : Nibble, 2 = if isTwoWord (0b0101#4 ++ d) then 2 else 1) d) (by decide) w w2

theorem stringClass_decodeWords (w w2 : RomWord) : (decodeWords w w2).stringClass = wordClass w :=
  decodeWords_induction (P := fun w i => i.stringClass = wordClass w) (fun _ => rfl) (fun _ => rfl)
    (fun d _ h1 h3 =>
      (by decide : ∀ d : Nibble, 1 ≤ d.toNat → d.toNat ≤ 3 → StringClass.none = wordClass (0b0000#4 ++ d)) d h1 h3)
    (fun d _ => (by decide : ∀ d : Nibble, StringClass.none = wordClass (0b0101#4 ++ d)) d) (by decide) w w2

theorem addr_append_toNat (d : Nibble) (l : RomWord) : (d ++ l : Addr).toNat = d.toNat * 256 + l.toNat := by
  have hl := l.isLt
  rw [BitVec.toNat_append, ← Nat.shiftLeft_add_eq_or_of_lt hl, Nat.shiftLeft_eq]

theorem wf_decodeWords (w w2 : RomWord) : (decodeWords w w2).wf = true := by
  refine decodeWords_induction (P := fun _ i => i.wf = true) (fun _ => rfl) (fun _ => rfl) (fun d v h1 h3 => ?_)
    (fun _ _ => rfl) (by decide) w w2
  have hv := v.isLt
  simp only [Instr.wf, tmlEncodable, addr_append_toNat, Bool.and_eq_true, decide_eq_true_eq]; omega

end Sys2Proof
end

