-- ==== Sys2Proof/Laws/Memory.lean ====
section
/-! SUPPORT. The laws of a memory: read after write, the other addresses, and that a write keeps the canonical form. -/

namespace Sys2Proof.Machine

variable {w : Nat}

@[simp] theorem Memory.read_nil (n : Nat) : Memory.read ([] : Memory w) n = none := rfl

theorem Memory.read_cons (k : Nat) (v : BitVec w) (m : Memory w) (n : Nat) :
    Memory.read ((k, v) :: m) n = if k = n then some v else Memory.read m n := rfl

@[simp] theorem Memory.wf_nil : Memory.wf ([] : Memory w) = true := rfl

theorem Memory.risingFrom_cons {lo k : Nat} {v : BitVec w} {m : Memory w} :
    Memory.risingFrom lo ((k, v) :: m) = true ↔ lo ≤ k ∧ k < 4096 ∧ Memory.risingFrom (k + 1) m = true := by
  simp [Memory.risingFrom, and_assoc]

theorem Memory.risingFrom_mono {lo hi : Nat} (h : lo ≤ hi) {m : Memory w} (hm : Memory.risingFrom hi m = true) :
    Memory.risingFrom lo m = true := by
  cases m with
  | nil => rfl
  | cons e m =>
    obtain ⟨hk, rest⟩ := Memory.risingFrom_cons.mp hm
    exact Memory.risingFrom_cons.mpr ⟨h.trans hk, rest⟩

/-- No address below the first admitted one is listed. -/
theorem Memory.read_of_lt {lo n : Nat} {m : Memory w} (hm : Memory.risingFrom lo m = true) (h : n < lo) :
    Memory.read m n = none := by
  induction m generalizing lo with
  | nil => rfl
  | cons e m ih =>
    obtain ⟨hk, -, hrest⟩ := Memory.risingFrom_cons.mp hm
    rw [Memory.read_cons, if_neg (by omega)]
    exact ih hrest (by omega)

/-- The address written reads as the word written. -/
theorem Memory.read_write_self (m : Memory w) (n : Nat) (v : BitVec w) :
    Memory.read (Memory.write m n v) n = some v := by
  induction m with
  | nil => simp [Memory.write, Memory.read]
  | cons e m ih =>
    unfold Memory.write
    split_ifs with h1 h2
    · simp [Memory.read_cons]
    · simp [Memory.read_cons]
    · rw [Memory.read_cons, if_neg (by omega), ih]

/-- Every other address reads as before. -/
theorem Memory.read_write_other (m : Memory w) {n k : Nat} (h : k ≠ n) (v : BitVec w) :
    Memory.read (Memory.write m n v) k = Memory.read m k := by
  induction m with
  | nil => simp [Memory.write, Memory.read, Ne.symm h]
  | cons e m ih =>
    obtain ⟨i, u⟩ := e
    unfold Memory.write
    split_ifs with h1 h2
    · simp [Memory.read_cons, Ne.symm h]
    · subst h2; simp [Memory.read_cons, Ne.symm h]
    · simp only [Memory.read_cons, ih]

theorem Memory.read_write (m : Memory w) (n k : Nat) (v : BitVec w) :
    Memory.read (Memory.write m n v) k = if k = n then some v else Memory.read m k := by
  split_ifs with h
  · rw [h, Memory.read_write_self]
  · exact Memory.read_write_other m h v

theorem Memory.risingFrom_write {lo n : Nat} {m : Memory w} (hm : Memory.risingFrom lo m = true) (hlo : lo ≤ n)
    (hn : n < 4096) (v : BitVec w) : Memory.risingFrom lo (Memory.write m n v) = true := by
  induction m generalizing lo with
  | nil => simp [Memory.write, Memory.risingFrom, hlo, hn]
  | cons e m ih =>
    obtain ⟨i, u⟩ := e
    obtain ⟨hk, hi, hrest⟩ := Memory.risingFrom_cons.mp hm
    unfold Memory.write
    split_ifs with h1 h2
    · exact Memory.risingFrom_cons.mpr ⟨hlo, hn, Memory.risingFrom_cons.mpr ⟨h1, hi, hrest⟩⟩
    · subst h2; exact Memory.risingFrom_cons.mpr ⟨hlo, hn, hrest⟩
    · exact Memory.risingFrom_cons.mpr ⟨hk, hi, ih hrest (by omega)⟩

/-- A write to a 12-bit address keeps the canonical form. -/
theorem Memory.wf_write {m : Memory w} (hm : Memory.wf m = true) (adr : BitVec 12) (v : BitVec w) :
    Memory.wf (Memory.write m adr.toNat v) = true :=
  Memory.risingFrom_write hm (Nat.zero_le _) adr.isLt v

end Sys2Proof.Machine
end

