-- ==== Sys2Proof/Laws/State.lean ====
section
/-! SUPPORT. One lemma per element of the state and per shared update, each true by unfolding, so that no later proof
unfolds a record update. -/

namespace Sys2Proof.Machine

variable (s : State)

@[simp] theorem afterRamRead_a (adr : Addr) : (afterRamRead adr s).a = s.a := rfl
@[simp] theorem afterRamRead_x (adr : Addr) : (afterRamRead adr s).x = s.x := rfl
@[simp] theorem afterRamRead_bu (adr : Addr) : (afterRamRead adr s).bu = s.bu := rfl
@[simp] theorem afterRamRead_bm (adr : Addr) : (afterRamRead adr s).bm = s.bm := rfl
@[simp] theorem afterRamRead_bl (adr : Addr) : (afterRamRead adr s).bl = s.bl := rfl
@[simp] theorem afterRamRead_p (adr : Addr) : (afterRamRead adr s).p = s.p := rfl
@[simp] theorem afterRamRead_sa (adr : Addr) : (afterRamRead adr s).sa = s.sa := rfl
@[simp] theorem afterRamRead_sb (adr : Addr) : (afterRamRead adr s).sb = s.sb := rfl
@[simp] theorem afterRamRead_c (adr : Addr) : (afterRamRead adr s).c = s.c := rfl
@[simp] theorem afterRamRead_ff1 (adr : Addr) : (afterRamRead adr s).ff1 = s.ff1 := rfl
@[simp] theorem afterRamRead_ff2 (adr : Addr) : (afterRamRead adr s).ff2 = s.ff2 := rfl
@[simp] theorem afterRamRead_doa (adr : Addr) : (afterRamRead adr s).doa = s.doa := rfl
@[simp] theorem afterRamRead_ram (adr : Addr) : (afterRamRead adr s).ram = s.ram := rfl
@[simp] theorem afterRamRead_skip (adr : Addr) : (afterRamRead adr s).skip = s.skip := rfl
@[simp] theorem afterRamRead_sagf (adr : Addr) : (afterRamRead adr s).sagf = s.sagf := rfl
@[simp] theorem afterRamRead_last (adr : Addr) : (afterRamRead adr s).last = s.last := rfl
@[simp] theorem afterRamRead_sagNow (adr : Addr) : (afterRamRead adr s).sagNow = s.sagNow := rfl
@[simp] theorem afterRamRead_rom (adr : Addr) : (afterRamRead adr s).rom = s.rom := rfl
@[simp] theorem afterRamRead_platform (adr : Addr) : (afterRamRead adr s).platform = s.platform := rfl
@[simp] theorem afterRamRead_world (adr : Addr) : (afterRamRead adr s).world = s.world := rfl
@[simp] theorem afterRamRead_draws (adr : Addr) : (afterRamRead adr s).draws = s.draws + (if ramPopulated s adr then 0 else 1) := rfl
@[simp] theorem afterRamRead_written (adr : Addr) : (afterRamRead adr s).written = s.written := rfl
@[simp] theorem afterRamRead_b (adr : Addr) : (afterRamRead adr s).b = s.b := rfl

@[simp] theorem ramWrite_a (adr : Addr) (v : Nibble) : (ramWrite adr v s).a = s.a := rfl
@[simp] theorem ramWrite_x (adr : Addr) (v : Nibble) : (ramWrite adr v s).x = s.x := rfl
@[simp] theorem ramWrite_bu (adr : Addr) (v : Nibble) : (ramWrite adr v s).bu = s.bu := rfl
@[simp] theorem ramWrite_bm (adr : Addr) (v : Nibble) : (ramWrite adr v s).bm = s.bm := rfl
@[simp] theorem ramWrite_bl (adr : Addr) (v : Nibble) : (ramWrite adr v s).bl = s.bl := rfl
@[simp] theorem ramWrite_p (adr : Addr) (v : Nibble) : (ramWrite adr v s).p = s.p := rfl
@[simp] theorem ramWrite_sa (adr : Addr) (v : Nibble) : (ramWrite adr v s).sa = s.sa := rfl
@[simp] theorem ramWrite_sb (adr : Addr) (v : Nibble) : (ramWrite adr v s).sb = s.sb := rfl
@[simp] theorem ramWrite_c (adr : Addr) (v : Nibble) : (ramWrite adr v s).c = s.c := rfl
@[simp] theorem ramWrite_ff1 (adr : Addr) (v : Nibble) : (ramWrite adr v s).ff1 = s.ff1 := rfl
@[simp] theorem ramWrite_ff2 (adr : Addr) (v : Nibble) : (ramWrite adr v s).ff2 = s.ff2 := rfl
@[simp] theorem ramWrite_doa (adr : Addr) (v : Nibble) : (ramWrite adr v s).doa = s.doa := rfl
@[simp] theorem ramWrite_ram (adr : Addr) (v : Nibble) : (ramWrite adr v s).ram = if ramPopulated s adr then Memory.write s.ram adr.toNat v else s.ram := rfl
@[simp] theorem ramWrite_skip (adr : Addr) (v : Nibble) : (ramWrite adr v s).skip = s.skip := rfl
@[simp] theorem ramWrite_sagf (adr : Addr) (v : Nibble) : (ramWrite adr v s).sagf = s.sagf := rfl
@[simp] theorem ramWrite_last (adr : Addr) (v : Nibble) : (ramWrite adr v s).last = s.last := rfl
@[simp] theorem ramWrite_sagNow (adr : Addr) (v : Nibble) : (ramWrite adr v s).sagNow = s.sagNow := rfl
@[simp] theorem ramWrite_rom (adr : Addr) (v : Nibble) : (ramWrite adr v s).rom = s.rom := rfl
@[simp] theorem ramWrite_platform (adr : Addr) (v : Nibble) : (ramWrite adr v s).platform = s.platform := rfl
@[simp] theorem ramWrite_world (adr : Addr) (v : Nibble) : (ramWrite adr v s).world = s.world := rfl
@[simp] theorem ramWrite_draws (adr : Addr) (v : Nibble) : (ramWrite adr v s).draws = s.draws := rfl
@[simp] theorem ramWrite_written (adr : Addr) (v : Nibble) : (ramWrite adr v s).written = s.written := rfl
@[simp] theorem ramWrite_b (adr : Addr) (v : Nibble) : (ramWrite adr v s).b = s.b := rfl

@[simp] theorem afterRomRead_a (adr : Addr) : (afterRomRead adr s).a = s.a := rfl
@[simp] theorem afterRomRead_x (adr : Addr) : (afterRomRead adr s).x = s.x := rfl
@[simp] theorem afterRomRead_bu (adr : Addr) : (afterRomRead adr s).bu = s.bu := rfl
@[simp] theorem afterRomRead_bm (adr : Addr) : (afterRomRead adr s).bm = s.bm := rfl
@[simp] theorem afterRomRead_bl (adr : Addr) : (afterRomRead adr s).bl = s.bl := rfl
@[simp] theorem afterRomRead_p (adr : Addr) : (afterRomRead adr s).p = s.p := rfl
@[simp] theorem afterRomRead_sa (adr : Addr) : (afterRomRead adr s).sa = s.sa := rfl
@[simp] theorem afterRomRead_sb (adr : Addr) : (afterRomRead adr s).sb = s.sb := rfl
@[simp] theorem afterRomRead_c (adr : Addr) : (afterRomRead adr s).c = s.c := rfl
@[simp] theorem afterRomRead_ff1 (adr : Addr) : (afterRomRead adr s).ff1 = s.ff1 := rfl
@[simp] theorem afterRomRead_ff2 (adr : Addr) : (afterRomRead adr s).ff2 = s.ff2 := rfl
@[simp] theorem afterRomRead_doa (adr : Addr) : (afterRomRead adr s).doa = s.doa := rfl
@[simp] theorem afterRomRead_ram (adr : Addr) : (afterRomRead adr s).ram = s.ram := rfl
@[simp] theorem afterRomRead_skip (adr : Addr) : (afterRomRead adr s).skip = s.skip := rfl
@[simp] theorem afterRomRead_sagf (adr : Addr) : (afterRomRead adr s).sagf = s.sagf := rfl
@[simp] theorem afterRomRead_last (adr : Addr) : (afterRomRead adr s).last = s.last := rfl
@[simp] theorem afterRomRead_sagNow (adr : Addr) : (afterRomRead adr s).sagNow = s.sagNow := rfl
@[simp] theorem afterRomRead_rom (adr : Addr) : (afterRomRead adr s).rom = s.rom := rfl
@[simp] theorem afterRomRead_platform (adr : Addr) : (afterRomRead adr s).platform = s.platform := rfl
@[simp] theorem afterRomRead_world (adr : Addr) : (afterRomRead adr s).world = s.world := rfl
@[simp] theorem afterRomRead_draws (adr : Addr) : (afterRomRead adr s).draws = s.draws + (if (Memory.read s.rom adr.toNat).isSome then 0 else 1) := rfl
@[simp] theorem afterRomRead_written (adr : Addr) : (afterRomRead adr s).written = s.written := rfl
@[simp] theorem afterRomRead_b (adr : Addr) : (afterRomRead adr s).b = s.b := rfl

@[simp] theorem skipIf_a (cond : Bool) : (skipIf cond s).a = s.a := rfl
@[simp] theorem skipIf_x (cond : Bool) : (skipIf cond s).x = s.x := rfl
@[simp] theorem skipIf_bu (cond : Bool) : (skipIf cond s).bu = s.bu := rfl
@[simp] theorem skipIf_bm (cond : Bool) : (skipIf cond s).bm = s.bm := rfl
@[simp] theorem skipIf_bl (cond : Bool) : (skipIf cond s).bl = s.bl := rfl
@[simp] theorem skipIf_p (cond : Bool) : (skipIf cond s).p = s.p := rfl
@[simp] theorem skipIf_sa (cond : Bool) : (skipIf cond s).sa = s.sa := rfl
@[simp] theorem skipIf_sb (cond : Bool) : (skipIf cond s).sb = s.sb := rfl
@[simp] theorem skipIf_c (cond : Bool) : (skipIf cond s).c = s.c := rfl
@[simp] theorem skipIf_ff1 (cond : Bool) : (skipIf cond s).ff1 = s.ff1 := rfl
@[simp] theorem skipIf_ff2 (cond : Bool) : (skipIf cond s).ff2 = s.ff2 := rfl
@[simp] theorem skipIf_doa (cond : Bool) : (skipIf cond s).doa = s.doa := rfl
@[simp] theorem skipIf_ram (cond : Bool) : (skipIf cond s).ram = s.ram := rfl
@[simp] theorem skipIf_skip (cond : Bool) : (skipIf cond s).skip = (s.skip || cond) := rfl
@[simp] theorem skipIf_sagf (cond : Bool) : (skipIf cond s).sagf = s.sagf := rfl
@[simp] theorem skipIf_last (cond : Bool) : (skipIf cond s).last = s.last := rfl
@[simp] theorem skipIf_sagNow (cond : Bool) : (skipIf cond s).sagNow = s.sagNow := rfl
@[simp] theorem skipIf_rom (cond : Bool) : (skipIf cond s).rom = s.rom := rfl
@[simp] theorem skipIf_platform (cond : Bool) : (skipIf cond s).platform = s.platform := rfl
@[simp] theorem skipIf_world (cond : Bool) : (skipIf cond s).world = s.world := rfl
@[simp] theorem skipIf_draws (cond : Bool) : (skipIf cond s).draws = s.draws := rfl
@[simp] theorem skipIf_written (cond : Bool) : (skipIf cond s).written = s.written := rfl
@[simp] theorem skipIf_b (cond : Bool) : (skipIf cond s).b = s.b := rfl

@[simp] theorem pushReturn_a : (pushReturn s).a = s.a := rfl
@[simp] theorem pushReturn_x : (pushReturn s).x = s.x := rfl
@[simp] theorem pushReturn_bu : (pushReturn s).bu = s.bu := rfl
@[simp] theorem pushReturn_bm : (pushReturn s).bm = s.bm := rfl
@[simp] theorem pushReturn_bl : (pushReturn s).bl = s.bl := rfl
@[simp] theorem pushReturn_p : (pushReturn s).p = s.p := rfl
@[simp] theorem pushReturn_sa : (pushReturn s).sa = s.p := rfl
@[simp] theorem pushReturn_sb : (pushReturn s).sb = s.sa := rfl
@[simp] theorem pushReturn_c : (pushReturn s).c = s.c := rfl
@[simp] theorem pushReturn_ff1 : (pushReturn s).ff1 = s.ff1 := rfl
@[simp] theorem pushReturn_ff2 : (pushReturn s).ff2 = s.ff2 := rfl
@[simp] theorem pushReturn_doa : (pushReturn s).doa = s.doa := rfl
@[simp] theorem pushReturn_ram : (pushReturn s).ram = s.ram := rfl
@[simp] theorem pushReturn_skip : (pushReturn s).skip = s.skip := rfl
@[simp] theorem pushReturn_sagf : (pushReturn s).sagf = s.sagf := rfl
@[simp] theorem pushReturn_last : (pushReturn s).last = s.last := rfl
@[simp] theorem pushReturn_sagNow : (pushReturn s).sagNow = s.sagNow := rfl
@[simp] theorem pushReturn_rom : (pushReturn s).rom = s.rom := rfl
@[simp] theorem pushReturn_platform : (pushReturn s).platform = s.platform := rfl
@[simp] theorem pushReturn_world : (pushReturn s).world = s.world := rfl
@[simp] theorem pushReturn_draws : (pushReturn s).draws = s.draws := rfl
@[simp] theorem pushReturn_written : (pushReturn s).written = s.written := rfl
@[simp] theorem pushReturn_b : (pushReturn s).b = s.b := rfl

@[simp] theorem popReturn_a : (popReturn s).a = s.a := rfl
@[simp] theorem popReturn_x : (popReturn s).x = s.x := rfl
@[simp] theorem popReturn_bu : (popReturn s).bu = s.bu := rfl
@[simp] theorem popReturn_bm : (popReturn s).bm = s.bm := rfl
@[simp] theorem popReturn_bl : (popReturn s).bl = s.bl := rfl
@[simp] theorem popReturn_p : (popReturn s).p = s.sa := rfl
@[simp] theorem popReturn_sa : (popReturn s).sa = s.sb := rfl
@[simp] theorem popReturn_sb : (popReturn s).sb = s.sa := rfl
@[simp] theorem popReturn_c : (popReturn s).c = s.c := rfl
@[simp] theorem popReturn_ff1 : (popReturn s).ff1 = s.ff1 := rfl
@[simp] theorem popReturn_ff2 : (popReturn s).ff2 = s.ff2 := rfl
@[simp] theorem popReturn_doa : (popReturn s).doa = s.doa := rfl
@[simp] theorem popReturn_ram : (popReturn s).ram = s.ram := rfl
@[simp] theorem popReturn_skip : (popReturn s).skip = s.skip := rfl
@[simp] theorem popReturn_sagf : (popReturn s).sagf = s.sagf := rfl
@[simp] theorem popReturn_last : (popReturn s).last = s.last := rfl
@[simp] theorem popReturn_sagNow : (popReturn s).sagNow = s.sagNow := rfl
@[simp] theorem popReturn_rom : (popReturn s).rom = s.rom := rfl
@[simp] theorem popReturn_platform : (popReturn s).platform = s.platform := rfl
@[simp] theorem popReturn_world : (popReturn s).world = s.world := rfl
@[simp] theorem popReturn_draws : (popReturn s).draws = s.draws := rfl
@[simp] theorem popReturn_written : (popReturn s).written = s.written := rfl
@[simp] theorem popReturn_b : (popReturn s).b = s.b := rfl

@[simp] theorem loadB8_a (v : RomWord) : (loadB8 v s).a = s.a := rfl
@[simp] theorem loadB8_x (v : RomWord) : (loadB8 v s).x = s.x := rfl
@[simp] theorem loadB8_bu (v : RomWord) : (loadB8 v s).bu = 0#4 := rfl
@[simp] theorem loadB8_bm (v : RomWord) : (loadB8 v s).bm = v.extractLsb' 4 4 := rfl
@[simp] theorem loadB8_bl (v : RomWord) : (loadB8 v s).bl = v.extractLsb' 0 4 := rfl
@[simp] theorem loadB8_p (v : RomWord) : (loadB8 v s).p = s.p := rfl
@[simp] theorem loadB8_sa (v : RomWord) : (loadB8 v s).sa = s.sa := rfl
@[simp] theorem loadB8_sb (v : RomWord) : (loadB8 v s).sb = s.sb := rfl
@[simp] theorem loadB8_c (v : RomWord) : (loadB8 v s).c = s.c := rfl
@[simp] theorem loadB8_ff1 (v : RomWord) : (loadB8 v s).ff1 = s.ff1 := rfl
@[simp] theorem loadB8_ff2 (v : RomWord) : (loadB8 v s).ff2 = s.ff2 := rfl
@[simp] theorem loadB8_doa (v : RomWord) : (loadB8 v s).doa = s.doa := rfl
@[simp] theorem loadB8_ram (v : RomWord) : (loadB8 v s).ram = s.ram := rfl
@[simp] theorem loadB8_skip (v : RomWord) : (loadB8 v s).skip = s.skip := rfl
@[simp] theorem loadB8_sagf (v : RomWord) : (loadB8 v s).sagf = s.sagf := rfl
@[simp] theorem loadB8_last (v : RomWord) : (loadB8 v s).last = s.last := rfl
@[simp] theorem loadB8_sagNow (v : RomWord) : (loadB8 v s).sagNow = s.sagNow := rfl
@[simp] theorem loadB8_rom (v : RomWord) : (loadB8 v s).rom = s.rom := rfl
@[simp] theorem loadB8_platform (v : RomWord) : (loadB8 v s).platform = s.platform := rfl
@[simp] theorem loadB8_world (v : RomWord) : (loadB8 v s).world = s.world := rfl
@[simp] theorem loadB8_draws (v : RomWord) : (loadB8 v s).draws = s.draws := rfl
@[simp] theorem loadB8_written (v : RomWord) : (loadB8 v s).written = s.written := rfl

@[simp] theorem loadAndStepB_a (n : BitVec 3) : (loadAndStepB n s).a = ramOperand s := rfl
@[simp] theorem loadAndStepB_x (n : BitVec 3) : (loadAndStepB n s).x = s.x := rfl
@[simp] theorem loadAndStepB_bu (n : BitVec 3) : (loadAndStepB n s).bu = s.bu := rfl
@[simp] theorem loadAndStepB_bm (n : BitVec 3) : (loadAndStepB n s).bm = bmXor s.bm n := rfl
@[simp] theorem loadAndStepB_bl (n : BitVec 3) : (loadAndStepB n s).bl = s.bl := rfl
@[simp] theorem loadAndStepB_p (n : BitVec 3) : (loadAndStepB n s).p = s.p := rfl
@[simp] theorem loadAndStepB_sa (n : BitVec 3) : (loadAndStepB n s).sa = s.sa := rfl
@[simp] theorem loadAndStepB_sb (n : BitVec 3) : (loadAndStepB n s).sb = s.sb := rfl
@[simp] theorem loadAndStepB_c (n : BitVec 3) : (loadAndStepB n s).c = s.c := rfl
@[simp] theorem loadAndStepB_ff1 (n : BitVec 3) : (loadAndStepB n s).ff1 = s.ff1 := rfl
@[simp] theorem loadAndStepB_ff2 (n : BitVec 3) : (loadAndStepB n s).ff2 = s.ff2 := rfl
@[simp] theorem loadAndStepB_doa (n : BitVec 3) : (loadAndStepB n s).doa = s.doa := rfl
@[simp] theorem loadAndStepB_ram (n : BitVec 3) : (loadAndStepB n s).ram = s.ram := rfl
@[simp] theorem loadAndStepB_skip (n : BitVec 3) : (loadAndStepB n s).skip = s.skip := rfl
@[simp] theorem loadAndStepB_sagf (n : BitVec 3) : (loadAndStepB n s).sagf = s.sagf := rfl
@[simp] theorem loadAndStepB_last (n : BitVec 3) : (loadAndStepB n s).last = s.last := rfl
@[simp] theorem loadAndStepB_sagNow (n : BitVec 3) : (loadAndStepB n s).sagNow = s.sagNow := rfl
@[simp] theorem loadAndStepB_rom (n : BitVec 3) : (loadAndStepB n s).rom = s.rom := rfl
@[simp] theorem loadAndStepB_platform (n : BitVec 3) : (loadAndStepB n s).platform = s.platform := rfl
@[simp] theorem loadAndStepB_world (n : BitVec 3) : (loadAndStepB n s).world = s.world := rfl
@[simp] theorem loadAndStepB_draws (n : BitVec 3) : (loadAndStepB n s).draws = s.draws + (if ramPopulated s (ramAddr s) then 0 else 1) := rfl
@[simp] theorem loadAndStepB_written (n : BitVec 3) : (loadAndStepB n s).written = s.written := rfl

@[simp] theorem exchangeAndStepB_a (n : BitVec 3) : (exchangeAndStepB n s).a = ramOperand s := rfl
@[simp] theorem exchangeAndStepB_x (n : BitVec 3) : (exchangeAndStepB n s).x = s.x := rfl
@[simp] theorem exchangeAndStepB_bu (n : BitVec 3) : (exchangeAndStepB n s).bu = s.bu := rfl
@[simp] theorem exchangeAndStepB_bm (n : BitVec 3) : (exchangeAndStepB n s).bm = bmXor s.bm n := rfl
@[simp] theorem exchangeAndStepB_bl (n : BitVec 3) : (exchangeAndStepB n s).bl = s.bl := rfl
@[simp] theorem exchangeAndStepB_p (n : BitVec 3) : (exchangeAndStepB n s).p = s.p := rfl
@[simp] theorem exchangeAndStepB_sa (n : BitVec 3) : (exchangeAndStepB n s).sa = s.sa := rfl
@[simp] theorem exchangeAndStepB_sb (n : BitVec 3) : (exchangeAndStepB n s).sb = s.sb := rfl
@[simp] theorem exchangeAndStepB_c (n : BitVec 3) : (exchangeAndStepB n s).c = s.c := rfl
@[simp] theorem exchangeAndStepB_ff1 (n : BitVec 3) : (exchangeAndStepB n s).ff1 = s.ff1 := rfl
@[simp] theorem exchangeAndStepB_ff2 (n : BitVec 3) : (exchangeAndStepB n s).ff2 = s.ff2 := rfl
@[simp] theorem exchangeAndStepB_doa (n : BitVec 3) : (exchangeAndStepB n s).doa = s.doa := rfl
@[simp] theorem exchangeAndStepB_ram (n : BitVec 3) : (exchangeAndStepB n s).ram = if ramPopulated s (ramAddr s) then Memory.write s.ram (ramAddr s).toNat s.a else s.ram := rfl
@[simp] theorem exchangeAndStepB_skip (n : BitVec 3) : (exchangeAndStepB n s).skip = s.skip := rfl
@[simp] theorem exchangeAndStepB_sagf (n : BitVec 3) : (exchangeAndStepB n s).sagf = s.sagf := rfl
@[simp] theorem exchangeAndStepB_last (n : BitVec 3) : (exchangeAndStepB n s).last = s.last := rfl
@[simp] theorem exchangeAndStepB_sagNow (n : BitVec 3) : (exchangeAndStepB n s).sagNow = s.sagNow := rfl
@[simp] theorem exchangeAndStepB_rom (n : BitVec 3) : (exchangeAndStepB n s).rom = s.rom := rfl
@[simp] theorem exchangeAndStepB_platform (n : BitVec 3) : (exchangeAndStepB n s).platform = s.platform := rfl
@[simp] theorem exchangeAndStepB_world (n : BitVec 3) : (exchangeAndStepB n s).world = s.world := rfl
@[simp] theorem exchangeAndStepB_draws (n : BitVec 3) : (exchangeAndStepB n s).draws = s.draws + (if ramPopulated s (ramAddr s) then 0 else 1) := rfl
@[simp] theorem exchangeAndStepB_written (n : BitVec 3) : (exchangeAndStepB n s).written = s.written := rfl

@[simp] theorem addMemory_a (cin : Bool) : (addMemory cin s).a = sumNibble (exactSum s.a (ramOperand s) cin) := rfl
@[simp] theorem addMemory_x (cin : Bool) : (addMemory cin s).x = s.x := rfl
@[simp] theorem addMemory_bu (cin : Bool) : (addMemory cin s).bu = s.bu := rfl
@[simp] theorem addMemory_bm (cin : Bool) : (addMemory cin s).bm = s.bm := rfl
@[simp] theorem addMemory_bl (cin : Bool) : (addMemory cin s).bl = s.bl := rfl
@[simp] theorem addMemory_p (cin : Bool) : (addMemory cin s).p = s.p := rfl
@[simp] theorem addMemory_sa (cin : Bool) : (addMemory cin s).sa = s.sa := rfl
@[simp] theorem addMemory_sb (cin : Bool) : (addMemory cin s).sb = s.sb := rfl
@[simp] theorem addMemory_c (cin : Bool) : (addMemory cin s).c = carryOut (exactSum s.a (ramOperand s) cin) := rfl
@[simp] theorem addMemory_ff1 (cin : Bool) : (addMemory cin s).ff1 = s.ff1 := rfl
@[simp] theorem addMemory_ff2 (cin : Bool) : (addMemory cin s).ff2 = s.ff2 := rfl
@[simp] theorem addMemory_doa (cin : Bool) : (addMemory cin s).doa = s.doa := rfl
@[simp] theorem addMemory_ram (cin : Bool) : (addMemory cin s).ram = s.ram := rfl
@[simp] theorem addMemory_skip (cin : Bool) : (addMemory cin s).skip = s.skip := rfl
@[simp] theorem addMemory_sagf (cin : Bool) : (addMemory cin s).sagf = s.sagf := rfl
@[simp] theorem addMemory_last (cin : Bool) : (addMemory cin s).last = s.last := rfl
@[simp] theorem addMemory_sagNow (cin : Bool) : (addMemory cin s).sagNow = s.sagNow := rfl
@[simp] theorem addMemory_rom (cin : Bool) : (addMemory cin s).rom = s.rom := rfl
@[simp] theorem addMemory_platform (cin : Bool) : (addMemory cin s).platform = s.platform := rfl
@[simp] theorem addMemory_world (cin : Bool) : (addMemory cin s).world = s.world := rfl
@[simp] theorem addMemory_draws (cin : Bool) : (addMemory cin s).draws = s.draws + (if ramPopulated s (ramAddr s) then 0 else 1) := rfl
@[simp] theorem addMemory_written (cin : Bool) : (addMemory cin s).written = s.written := rfl
@[simp] theorem addMemory_b (cin : Bool) : (addMemory cin s).b = s.b := rfl

@[simp] theorem combineMemory_a (f : Nibble → Nibble → Nibble) : (combineMemory f s).a = f s.a (ramOperand s) := rfl
@[simp] theorem combineMemory_x (f : Nibble → Nibble → Nibble) : (combineMemory f s).x = s.x := rfl
@[simp] theorem combineMemory_bu (f : Nibble → Nibble → Nibble) : (combineMemory f s).bu = s.bu := rfl
@[simp] theorem combineMemory_bm (f : Nibble → Nibble → Nibble) : (combineMemory f s).bm = s.bm := rfl
@[simp] theorem combineMemory_bl (f : Nibble → Nibble → Nibble) : (combineMemory f s).bl = s.bl := rfl
@[simp] theorem combineMemory_p (f : Nibble → Nibble → Nibble) : (combineMemory f s).p = s.p := rfl
@[simp] theorem combineMemory_sa (f : Nibble → Nibble → Nibble) : (combineMemory f s).sa = s.sa := rfl
@[simp] theorem combineMemory_sb (f : Nibble → Nibble → Nibble) : (combineMemory f s).sb = s.sb := rfl
@[simp] theorem combineMemory_c (f : Nibble → Nibble → Nibble) : (combineMemory f s).c = s.c := rfl
@[simp] theorem combineMemory_ff1 (f : Nibble → Nibble → Nibble) : (combineMemory f s).ff1 = s.ff1 := rfl
@[simp] theorem combineMemory_ff2 (f : Nibble → Nibble → Nibble) : (combineMemory f s).ff2 = s.ff2 := rfl
@[simp] theorem combineMemory_doa (f : Nibble → Nibble → Nibble) : (combineMemory f s).doa = s.doa := rfl
@[simp] theorem combineMemory_ram (f : Nibble → Nibble → Nibble) : (combineMemory f s).ram = s.ram := rfl
@[simp] theorem combineMemory_skip (f : Nibble → Nibble → Nibble) : (combineMemory f s).skip = s.skip := rfl
@[simp] theorem combineMemory_sagf (f : Nibble → Nibble → Nibble) : (combineMemory f s).sagf = s.sagf := rfl
@[simp] theorem combineMemory_last (f : Nibble → Nibble → Nibble) : (combineMemory f s).last = s.last := rfl
@[simp] theorem combineMemory_sagNow (f : Nibble → Nibble → Nibble) : (combineMemory f s).sagNow = s.sagNow := rfl
@[simp] theorem combineMemory_rom (f : Nibble → Nibble → Nibble) : (combineMemory f s).rom = s.rom := rfl
@[simp] theorem combineMemory_platform (f : Nibble → Nibble → Nibble) : (combineMemory f s).platform = s.platform := rfl
@[simp] theorem combineMemory_world (f : Nibble → Nibble → Nibble) : (combineMemory f s).world = s.world := rfl
@[simp] theorem combineMemory_draws (f : Nibble → Nibble → Nibble) : (combineMemory f s).draws = s.draws + (if ramPopulated s (ramAddr s) then 0 else 1) := rfl
@[simp] theorem combineMemory_written (f : Nibble → Nibble → Nibble) : (combineMemory f s).written = s.written := rfl
@[simp] theorem combineMemory_b (f : Nibble → Nibble → Nibble) : (combineMemory f s).b = s.b := rfl

@[simp] theorem afterDiscreteIn_a (g : DiscreteGroup) : (afterDiscreteIn g s).a = s.a := rfl
@[simp] theorem afterDiscreteIn_x (g : DiscreteGroup) : (afterDiscreteIn g s).x = s.x := rfl
@[simp] theorem afterDiscreteIn_bu (g : DiscreteGroup) : (afterDiscreteIn g s).bu = s.bu := rfl
@[simp] theorem afterDiscreteIn_bm (g : DiscreteGroup) : (afterDiscreteIn g s).bm = s.bm := rfl
@[simp] theorem afterDiscreteIn_bl (g : DiscreteGroup) : (afterDiscreteIn g s).bl = s.bl := rfl
@[simp] theorem afterDiscreteIn_p (g : DiscreteGroup) : (afterDiscreteIn g s).p = s.p := rfl
@[simp] theorem afterDiscreteIn_sa (g : DiscreteGroup) : (afterDiscreteIn g s).sa = s.sa := rfl
@[simp] theorem afterDiscreteIn_sb (g : DiscreteGroup) : (afterDiscreteIn g s).sb = s.sb := rfl
@[simp] theorem afterDiscreteIn_c (g : DiscreteGroup) : (afterDiscreteIn g s).c = s.c := rfl
@[simp] theorem afterDiscreteIn_ff1 (g : DiscreteGroup) : (afterDiscreteIn g s).ff1 = s.ff1 := rfl
@[simp] theorem afterDiscreteIn_ff2 (g : DiscreteGroup) : (afterDiscreteIn g s).ff2 = s.ff2 := rfl
@[simp] theorem afterDiscreteIn_doa (g : DiscreteGroup) : (afterDiscreteIn g s).doa = s.doa := rfl
@[simp] theorem afterDiscreteIn_ram (g : DiscreteGroup) : (afterDiscreteIn g s).ram = s.ram := rfl
@[simp] theorem afterDiscreteIn_skip (g : DiscreteGroup) : (afterDiscreteIn g s).skip = s.skip := rfl
@[simp] theorem afterDiscreteIn_sagf (g : DiscreteGroup) : (afterDiscreteIn g s).sagf = s.sagf := rfl
@[simp] theorem afterDiscreteIn_last (g : DiscreteGroup) : (afterDiscreteIn g s).last = s.last := rfl
@[simp] theorem afterDiscreteIn_sagNow (g : DiscreteGroup) : (afterDiscreteIn g s).sagNow = s.sagNow := rfl
@[simp] theorem afterDiscreteIn_rom (g : DiscreteGroup) : (afterDiscreteIn g s).rom = s.rom := rfl
@[simp] theorem afterDiscreteIn_platform (g : DiscreteGroup) : (afterDiscreteIn g s).platform = s.platform := rfl
@[simp] theorem afterDiscreteIn_world (g : DiscreteGroup) : (afterDiscreteIn g s).world = (s.world.dropSample g).record (.discreteIn g (discreteIn g s)) := rfl
@[simp] theorem afterDiscreteIn_draws (g : DiscreteGroup) : (afterDiscreteIn g s).draws = s.draws + (if (s.world.samples g).isEmpty then 1 else 0) := rfl
@[simp] theorem afterDiscreteIn_written (g : DiscreteGroup) : (afterDiscreteIn g s).written = s.written := rfl
@[simp] theorem afterDiscreteIn_b (g : DiscreteGroup) : (afterDiscreteIn g s).b = s.b := rfl

@[simp] theorem discreteOut_a (v : Nibble) : (discreteOut v s).a = s.a := rfl
@[simp] theorem discreteOut_x (v : Nibble) : (discreteOut v s).x = s.x := rfl
@[simp] theorem discreteOut_bu (v : Nibble) : (discreteOut v s).bu = s.bu := rfl
@[simp] theorem discreteOut_bm (v : Nibble) : (discreteOut v s).bm = s.bm := rfl
@[simp] theorem discreteOut_bl (v : Nibble) : (discreteOut v s).bl = s.bl := rfl
@[simp] theorem discreteOut_p (v : Nibble) : (discreteOut v s).p = s.p := rfl
@[simp] theorem discreteOut_sa (v : Nibble) : (discreteOut v s).sa = s.sa := rfl
@[simp] theorem discreteOut_sb (v : Nibble) : (discreteOut v s).sb = s.sb := rfl
@[simp] theorem discreteOut_c (v : Nibble) : (discreteOut v s).c = s.c := rfl
@[simp] theorem discreteOut_ff1 (v : Nibble) : (discreteOut v s).ff1 = s.ff1 := rfl
@[simp] theorem discreteOut_ff2 (v : Nibble) : (discreteOut v s).ff2 = s.ff2 := rfl
@[simp] theorem discreteOut_doa (v : Nibble) : (discreteOut v s).doa = v := rfl
@[simp] theorem discreteOut_ram (v : Nibble) : (discreteOut v s).ram = s.ram := rfl
@[simp] theorem discreteOut_skip (v : Nibble) : (discreteOut v s).skip = s.skip := rfl
@[simp] theorem discreteOut_sagf (v : Nibble) : (discreteOut v s).sagf = s.sagf := rfl
@[simp] theorem discreteOut_last (v : Nibble) : (discreteOut v s).last = s.last := rfl
@[simp] theorem discreteOut_sagNow (v : Nibble) : (discreteOut v s).sagNow = s.sagNow := rfl
@[simp] theorem discreteOut_rom (v : Nibble) : (discreteOut v s).rom = s.rom := rfl
@[simp] theorem discreteOut_platform (v : Nibble) : (discreteOut v s).platform = s.platform := rfl
@[simp] theorem discreteOut_world (v : Nibble) : (discreteOut v s).world = s.world.record (.discreteOut v) := rfl
@[simp] theorem discreteOut_draws (v : Nibble) : (discreteOut v s).draws = s.draws := rfl
@[simp] theorem discreteOut_written (v : Nibble) : (discreteOut v s).written = s.written := rfl
@[simp] theorem discreteOut_b (v : Nibble) : (discreteOut v s).b = s.b := rfl

@[simp] theorem afterIoTransact_a (cmd : RomWord) (out : Nibble) : (afterIoTransact cmd out s).a = s.a := rfl
@[simp] theorem afterIoTransact_x (cmd : RomWord) (out : Nibble) : (afterIoTransact cmd out s).x = s.x := rfl
@[simp] theorem afterIoTransact_bu (cmd : RomWord) (out : Nibble) : (afterIoTransact cmd out s).bu = s.bu := rfl
@[simp] theorem afterIoTransact_bm (cmd : RomWord) (out : Nibble) : (afterIoTransact cmd out s).bm = s.bm := rfl
@[simp] theorem afterIoTransact_bl (cmd : RomWord) (out : Nibble) : (afterIoTransact cmd out s).bl = s.bl := rfl
@[simp] theorem afterIoTransact_p (cmd : RomWord) (out : Nibble) : (afterIoTransact cmd out s).p = s.p := rfl
@[simp] theorem afterIoTransact_sa (cmd : RomWord) (out : Nibble) : (afterIoTransact cmd out s).sa = s.sa := rfl
@[simp] theorem afterIoTransact_sb (cmd : RomWord) (out : Nibble) : (afterIoTransact cmd out s).sb = s.sb := rfl
@[simp] theorem afterIoTransact_c (cmd : RomWord) (out : Nibble) : (afterIoTransact cmd out s).c = s.c := rfl
@[simp] theorem afterIoTransact_ff1 (cmd : RomWord) (out : Nibble) : (afterIoTransact cmd out s).ff1 = s.ff1 := rfl
@[simp] theorem afterIoTransact_ff2 (cmd : RomWord) (out : Nibble) : (afterIoTransact cmd out s).ff2 = s.ff2 := rfl
@[simp] theorem afterIoTransact_doa (cmd : RomWord) (out : Nibble) : (afterIoTransact cmd out s).doa = s.doa := rfl
@[simp] theorem afterIoTransact_ram (cmd : RomWord) (out : Nibble) : (afterIoTransact cmd out s).ram = s.ram := rfl
@[simp] theorem afterIoTransact_skip (cmd : RomWord) (out : Nibble) : (afterIoTransact cmd out s).skip = s.skip := rfl
@[simp] theorem afterIoTransact_sagf (cmd : RomWord) (out : Nibble) : (afterIoTransact cmd out s).sagf = s.sagf := rfl
@[simp] theorem afterIoTransact_last (cmd : RomWord) (out : Nibble) : (afterIoTransact cmd out s).last = s.last := rfl
@[simp] theorem afterIoTransact_sagNow (cmd : RomWord) (out : Nibble) : (afterIoTransact cmd out s).sagNow = s.sagNow := rfl
@[simp] theorem afterIoTransact_rom (cmd : RomWord) (out : Nibble) : (afterIoTransact cmd out s).rom = s.rom := rfl
@[simp] theorem afterIoTransact_platform (cmd : RomWord) (out : Nibble) : (afterIoTransact cmd out s).platform = s.platform := rfl
@[simp] theorem afterIoTransact_world (cmd : RomWord) (out : Nibble) : (afterIoTransact cmd out s).world = { s.world with replies := s.world.replies.tail }.record (.ioTransact cmd out (busReply cmd out s)) := rfl
@[simp] theorem afterIoTransact_draws (cmd : RomWord) (out : Nibble) : (afterIoTransact cmd out s).draws = s.draws + (if s.world.replies.isEmpty then 1 else 0) := rfl
@[simp] theorem afterIoTransact_written (cmd : RomWord) (out : Nibble) : (afterIoTransact cmd out s).written = s.written := rfl
@[simp] theorem afterIoTransact_b (cmd : RomWord) (out : Nibble) : (afterIoTransact cmd out s).b = s.b := rfl

@[simp] theorem advanceP_a : (advanceP s).a = s.a := rfl
@[simp] theorem advanceP_x : (advanceP s).x = s.x := rfl
@[simp] theorem advanceP_bu : (advanceP s).bu = s.bu := rfl
@[simp] theorem advanceP_bm : (advanceP s).bm = s.bm := rfl
@[simp] theorem advanceP_bl : (advanceP s).bl = s.bl := rfl
@[simp] theorem advanceP_p : (advanceP s).p = s.p + 1#12 := rfl
@[simp] theorem advanceP_sa : (advanceP s).sa = s.sa := rfl
@[simp] theorem advanceP_sb : (advanceP s).sb = s.sb := rfl
@[simp] theorem advanceP_c : (advanceP s).c = s.c := rfl
@[simp] theorem advanceP_ff1 : (advanceP s).ff1 = s.ff1 := rfl
@[simp] theorem advanceP_ff2 : (advanceP s).ff2 = s.ff2 := rfl
@[simp] theorem advanceP_doa : (advanceP s).doa = s.doa := rfl
@[simp] theorem advanceP_ram : (advanceP s).ram = s.ram := rfl
@[simp] theorem advanceP_skip : (advanceP s).skip = s.skip := rfl
@[simp] theorem advanceP_sagf : (advanceP s).sagf = s.sagf := rfl
@[simp] theorem advanceP_last : (advanceP s).last = s.last := rfl
@[simp] theorem advanceP_sagNow : (advanceP s).sagNow = s.sagNow := rfl
@[simp] theorem advanceP_rom : (advanceP s).rom = s.rom := rfl
@[simp] theorem advanceP_platform : (advanceP s).platform = s.platform := rfl
@[simp] theorem advanceP_world : (advanceP s).world = s.world := rfl
@[simp] theorem advanceP_draws : (advanceP s).draws = s.draws := rfl
@[simp] theorem advanceP_written : (advanceP s).written = s.written := rfl
@[simp] theorem advanceP_b : (advanceP s).b = s.b := rfl

@[simp] theorem afterFetch_a : (afterFetch s).a = s.a := rfl
@[simp] theorem afterFetch_x : (afterFetch s).x = s.x := rfl
@[simp] theorem afterFetch_bu : (afterFetch s).bu = s.bu := rfl
@[simp] theorem afterFetch_bm : (afterFetch s).bm = s.bm := rfl
@[simp] theorem afterFetch_bl : (afterFetch s).bl = s.bl := rfl
@[simp] theorem afterFetch_p : (afterFetch s).p = s.p + 1#12 := rfl
@[simp] theorem afterFetch_sa : (afterFetch s).sa = s.sa := rfl
@[simp] theorem afterFetch_sb : (afterFetch s).sb = s.sb := rfl
@[simp] theorem afterFetch_c : (afterFetch s).c = s.c := rfl
@[simp] theorem afterFetch_ff1 : (afterFetch s).ff1 = s.ff1 := rfl
@[simp] theorem afterFetch_ff2 : (afterFetch s).ff2 = s.ff2 := rfl
@[simp] theorem afterFetch_doa : (afterFetch s).doa = s.doa := rfl
@[simp] theorem afterFetch_ram : (afterFetch s).ram = s.ram := rfl
@[simp] theorem afterFetch_skip : (afterFetch s).skip = s.skip := rfl
@[simp] theorem afterFetch_sagf : (afterFetch s).sagf = s.sagf := rfl
@[simp] theorem afterFetch_last : (afterFetch s).last = s.last := rfl
@[simp] theorem afterFetch_sagNow : (afterFetch s).sagNow = s.sagNow := rfl
@[simp] theorem afterFetch_rom : (afterFetch s).rom = s.rom := rfl
@[simp] theorem afterFetch_platform : (afterFetch s).platform = s.platform := rfl
@[simp] theorem afterFetch_world : (afterFetch s).world = s.world := rfl
@[simp] theorem afterFetch_draws : (afterFetch s).draws = s.draws + (if (Memory.read s.rom s.p.toNat).isSome then 0 else 1) := rfl
@[simp] theorem afterFetch_written : (afterFetch s).written = s.written := rfl
@[simp] theorem afterFetch_b : (afterFetch s).b = s.b := rfl

@[simp] theorem beginStep_a : (beginStep s).a = s.a := rfl
@[simp] theorem beginStep_x : (beginStep s).x = s.x := rfl
@[simp] theorem beginStep_bu : (beginStep s).bu = s.bu := rfl
@[simp] theorem beginStep_bm : (beginStep s).bm = s.bm := rfl
@[simp] theorem beginStep_bl : (beginStep s).bl = s.bl := rfl
@[simp] theorem beginStep_p : (beginStep s).p = s.p + 1#12 := rfl
@[simp] theorem beginStep_sa : (beginStep s).sa = s.sa := rfl
@[simp] theorem beginStep_sb : (beginStep s).sb = s.sb := rfl
@[simp] theorem beginStep_c : (beginStep s).c = s.c := rfl
@[simp] theorem beginStep_ff1 : (beginStep s).ff1 = s.ff1 := rfl
@[simp] theorem beginStep_ff2 : (beginStep s).ff2 = s.ff2 := rfl
@[simp] theorem beginStep_doa : (beginStep s).doa = s.doa := rfl
@[simp] theorem beginStep_ram : (beginStep s).ram = s.ram := rfl
@[simp] theorem beginStep_skip : (beginStep s).skip = s.skip := rfl
@[simp] theorem beginStep_sagf : (beginStep s).sagf = false := rfl
@[simp] theorem beginStep_last : (beginStep s).last = s.last := rfl
@[simp] theorem beginStep_sagNow : (beginStep s).sagNow = s.sagf := rfl
@[simp] theorem beginStep_rom : (beginStep s).rom = s.rom := rfl
@[simp] theorem beginStep_platform : (beginStep s).platform = s.platform := rfl
@[simp] theorem beginStep_world : (beginStep s).world = s.world := rfl
@[simp] theorem beginStep_draws : (beginStep s).draws = s.draws + (if (Memory.read s.rom s.p.toNat).isSome then 0 else 1) := rfl
@[simp] theorem beginStep_written : (beginStep s).written = s.written := rfl
@[simp] theorem beginStep_b : (beginStep s).b = s.b := rfl

@[simp] theorem endStep_a (k : StringClass) : (endStep k s).a = s.a := rfl
@[simp] theorem endStep_x (k : StringClass) : (endStep k s).x = s.x := rfl
@[simp] theorem endStep_bu (k : StringClass) : (endStep k s).bu = s.bu := rfl
@[simp] theorem endStep_bm (k : StringClass) : (endStep k s).bm = s.bm := rfl
@[simp] theorem endStep_bl (k : StringClass) : (endStep k s).bl = s.bl := rfl
@[simp] theorem endStep_p (k : StringClass) : (endStep k s).p = s.p := rfl
@[simp] theorem endStep_sa (k : StringClass) : (endStep k s).sa = s.sa := rfl
@[simp] theorem endStep_sb (k : StringClass) : (endStep k s).sb = s.sb := rfl
@[simp] theorem endStep_c (k : StringClass) : (endStep k s).c = s.c := rfl
@[simp] theorem endStep_ff1 (k : StringClass) : (endStep k s).ff1 = s.ff1 := rfl
@[simp] theorem endStep_ff2 (k : StringClass) : (endStep k s).ff2 = s.ff2 := rfl
@[simp] theorem endStep_doa (k : StringClass) : (endStep k s).doa = s.doa := rfl
@[simp] theorem endStep_ram (k : StringClass) : (endStep k s).ram = s.ram := rfl
@[simp] theorem endStep_skip (k : StringClass) : (endStep k s).skip = s.skip := rfl
@[simp] theorem endStep_sagf (k : StringClass) : (endStep k s).sagf = s.sagf := rfl
@[simp] theorem endStep_last (k : StringClass) : (endStep k s).last = k := rfl
@[simp] theorem endStep_sagNow (k : StringClass) : (endStep k s).sagNow = false := rfl
@[simp] theorem endStep_rom (k : StringClass) : (endStep k s).rom = s.rom := rfl
@[simp] theorem endStep_platform (k : StringClass) : (endStep k s).platform = s.platform := rfl
@[simp] theorem endStep_world (k : StringClass) : (endStep k s).world = s.world := rfl
@[simp] theorem endStep_draws (k : StringClass) : (endStep k s).draws = s.draws := rfl
@[simp] theorem endStep_written (k : StringClass) : (endStep k s).written = s.written := rfl
@[simp] theorem endStep_b (k : StringClass) : (endStep k s).b = s.b := rfl

@[simp] theorem recordExecuted_a (i : Instr) : (recordExecuted i s).a = s.a := rfl
@[simp] theorem recordExecuted_x (i : Instr) : (recordExecuted i s).x = s.x := rfl
@[simp] theorem recordExecuted_bu (i : Instr) : (recordExecuted i s).bu = s.bu := rfl
@[simp] theorem recordExecuted_bm (i : Instr) : (recordExecuted i s).bm = s.bm := rfl
@[simp] theorem recordExecuted_bl (i : Instr) : (recordExecuted i s).bl = s.bl := rfl
@[simp] theorem recordExecuted_p (i : Instr) : (recordExecuted i s).p = s.p := rfl
@[simp] theorem recordExecuted_sa (i : Instr) : (recordExecuted i s).sa = s.sa := rfl
@[simp] theorem recordExecuted_sb (i : Instr) : (recordExecuted i s).sb = s.sb := rfl
@[simp] theorem recordExecuted_c (i : Instr) : (recordExecuted i s).c = s.c := rfl
@[simp] theorem recordExecuted_ff1 (i : Instr) : (recordExecuted i s).ff1 = s.ff1 := rfl
@[simp] theorem recordExecuted_ff2 (i : Instr) : (recordExecuted i s).ff2 = s.ff2 := rfl
@[simp] theorem recordExecuted_doa (i : Instr) : (recordExecuted i s).doa = s.doa := rfl
@[simp] theorem recordExecuted_ram (i : Instr) : (recordExecuted i s).ram = s.ram := rfl
@[simp] theorem recordExecuted_skip (i : Instr) : (recordExecuted i s).skip = s.skip := rfl
@[simp] theorem recordExecuted_sagf (i : Instr) : (recordExecuted i s).sagf = s.sagf := rfl
@[simp] theorem recordExecuted_last (i : Instr) : (recordExecuted i s).last = s.last := rfl
@[simp] theorem recordExecuted_sagNow (i : Instr) : (recordExecuted i s).sagNow = s.sagNow := rfl
@[simp] theorem recordExecuted_rom (i : Instr) : (recordExecuted i s).rom = s.rom := rfl
@[simp] theorem recordExecuted_platform (i : Instr) : (recordExecuted i s).platform = s.platform := rfl
@[simp] theorem recordExecuted_world (i : Instr) : (recordExecuted i s).world = s.world := rfl
@[simp] theorem recordExecuted_draws (i : Instr) : (recordExecuted i s).draws = s.draws := rfl
@[simp] theorem recordExecuted_written (i : Instr) : (recordExecuted i s).written = recordWrites i s.written := rfl
@[simp] theorem recordExecuted_b (i : Instr) : (recordExecuted i s).b = s.b := rfl

end Sys2Proof.Machine
end

