-- ==== Sys2Proof/Laws/Ops.lean ====
section
/-! SUPPORT. What the shared operations can do, said once each: the RAM seen through `ramContent`, the step's branches,
and the word-level facts about digits and addresses. -/

namespace Sys2Proof.Machine

/-! ### RAM -/

/-- `RAM_POPULATED` is the platform's alone. -/
theorem ramPopulated_congr {s t : State} (h : t.platform = s.platform) (adr : Addr) :
    ramPopulated t adr = ramPopulated s adr := by
  simp only [ramPopulated, h]

/-- The content of RAM is determined by the memory and the platform. -/
theorem ramContent_congr {s t : State} (hm : t.ram = s.ram) (hp : t.platform = s.platform) (adr : Addr) :
    ramContent t adr = ramContent s adr := by
  simp only [ramContent, ramPopulated_congr hp, hm]

theorem ramAddr_congr {s t : State} (hb : t.b = s.b) (hl : t.bl = s.bl) (hs : t.sagNow = s.sagNow) :
    ramAddr t = ramAddr s := by
  simp only [ramAddr, hb, hl, hs]

theorem ramContent_of_populated {s : State} {adr : Addr} (h : ramPopulated s adr = true) :
    ramContent s adr = some ((Memory.read s.ram adr.toNat).getD (Config.powerOnRam adr)) := by
  simp [ramContent, h]

theorem ramContent_of_unpopulated {s : State} {adr : Addr} (h : ramPopulated s adr = false) :
    ramContent s adr = none := by
  simp [ramContent, h]

/-- A read gives the content, or the next free value at an unpopulated address. -/
theorem ramWord_of_content {s : State} {adr : Addr} {v : Nibble} (h : ramContent s adr = some v) :
    ramWord s adr = v := by
  simp [ramWord, h]

/-- A store changes the content of its own address, if that is populated, and of no other. -/
theorem ramContent_ramWrite (s : State) (adr k : Addr) (v : Nibble) :
    ramContent (ramWrite adr v s) k =
      if k = adr ∧ ramPopulated s adr = true then some v else ramContent s k := by
  simp only [ramContent, ramPopulated_congr (ramWrite_platform s adr v), ramWrite_ram]
  by_cases hk : k = adr
  · subst hk
    by_cases hp : ramPopulated s k = true <;> simp [hp, Memory.read_write]
  · have : k.toNat ≠ adr.toNat := fun h => hk (BitVec.eq_of_toNat_eq h)
    by_cases hp : ramPopulated s adr = true <;> simp [hk, hp, Memory.read_write, this]

/-- The frame of EX and EXD: no address but the RAM address of the step changes. -/
theorem ramContent_exchange_other (n : BitVec 3) {s : State} {adr : Addr} (h : adr ≠ ramAddr s) :
    ramContent (exchangeAndStepB n s) adr = ramContent s adr := by
  rw [exchangeAndStepB, ramContent_ramWrite, if_neg (by simp [h])]
  exact ramContent_congr rfl rfl adr

/-- EX and EXD leave the old A at the RAM address of the step, if it is populated. -/
theorem ramContent_exchange_self (n : BitVec 3) {s : State} (h : ramPopulated s (ramAddr s) = true) :
    ramContent (exchangeAndStepB n s) (ramAddr s) = some s.a := by
  rw [exchangeAndStepB, ramContent_ramWrite, if_pos ⟨rfl, (ramPopulated_congr (s := s) rfl _).trans h⟩]

/-! ### The step -/

theorem stepWith_skip (run : Instr → State → Outcome) {s : State} (h : s.skip = true) :
    stepWith run s = .next (ignoreBySkip (romWord s s.p) (beginStep s)) := by
  simp [stepWith, h]

theorem stepWith_string (run : Instr → State → Outcome) {s : State} (h : s.skip = false)
    (hs : stringIgnores (wordClass (romWord s s.p)) s.last = true) :
    stepWith run s = .next (ignoreByString (romWord s s.p) (beginStep s)) := by
  simp [stepWith, h, hs]

theorem stepWith_execute (run : Instr → State → Outcome) {s : State} (h : s.skip = false)
    (hs : stringIgnores (wordClass (romWord s s.p)) s.last = false) :
    stepWith run s = executeWord run (romWord s s.p) (beginStep s) := by
  simp [stepWith, h, hs]

theorem stringIgnores_iff {k last : StringClass} :
    stringIgnores k last = true ↔ k ≠ .none ∧ last = k := by
  cases k <;> cases last <;> decide

/-- A ROM read gives the word of the program where there is one. -/
theorem romWord_of_listed {s : State} {adr : Addr} {w : RomWord} (h : Memory.read s.rom adr.toNat = some w) :
    romWord s adr = w := by
  simp [romWord, h]

/-- The state an instruction finds: its words are behind P and SAGF has become `sag_now`. -/
theorem fetchSecond_beginStep (s : State) (w : RomWord) :
    fetchSecond w (beginStep s) =
      { s with
        p := s.p + (if isTwoWord w then 2#12 else 1#12), sagNow := s.sagf, sagf := false
        draws := s.draws + (if (Memory.read s.rom s.p.toNat).isSome then 0 else 1) +
          (if isTwoWord w = true ∧ (Memory.read s.rom (s.p + 1#12).toNat).isNone = true then 1 else 0) } := by
  unfold fetchSecond
  split_ifs with h1 h2 h2
  all_goals
    simp_all [beginStep, afterFetch, advanceP, afterRomRead, BitVec.add_assoc]

/-! ### Digits and addresses -/

theorem b_toNat (s : State) : s.b.toNat = s.bu.toNat * 256 + s.bm.toNat * 16 + s.bl.toNat := by
  have hu := s.bu.isLt; have hm := s.bm.isLt; have hl := s.bl.isLt
  simp only [State.b, BitVec.toNat_append]
  rw [← Nat.shiftLeft_add_eq_or_of_lt hm, ← Nat.shiftLeft_add_eq_or_of_lt hl]
  simp only [Nat.shiftLeft_eq]; omega

theorem bl_toNat (s : State) : s.b.toNat % 16 = s.bl.toNat := by
  rw [b_toNat]; have := s.bl.isLt; omega

/-- The address put out after a SAG is BL alone (R56). -/
theorem sagAddr_toNat (bl : Nibble) : (0x00#8 ++ bl : Addr).toNat = bl.toNat := by
  revert bl; decide

theorem xor_shifted (u l n : Nat) (hl : l < 16) : (u * 16 + l) ^^^ (n * 16) = (u ^^^ n) * 16 + l := by
  apply Nat.eq_of_testBit_eq
  intro j
  have e (v m : Nat) (hm : m < 16) : (v * 16 + m).testBit j = if j < 4 then m.testBit j else v.testBit (j - 4) := by
    rw [Nat.mul_comm]; exact Nat.testBit_two_pow_mul_add (i := 4) v hm j
  have e0 := e n 0 (by omega)
  rw [Nat.add_zero] at e0
  rw [Nat.testBit_xor, e u l hl, e0, e (u ^^^ n) l hl]
  split_ifs <;> simp [Nat.testBit_xor]

/-- B after `B(7:5) <- B(7:5) xor n` is `B xor (n * 16)` (R121). -/
theorem bmXor_toNat (s : State) (n : BitVec 3) :
    s.bu.toNat * 256 + (bmXor s.bm n).toNat * 16 + s.bl.toNat = s.b.toNat ^^^ (n.toNat * 16) := by
  have digit : ∀ (bm : Nibble) (n : BitVec 3), (bmXor bm n).toNat = bm.toNat ^^^ n.toNat := by decide
  have hm := s.bm.isLt; have hl := s.bl.isLt; have hn := n.isLt
  have top : (s.bu.toNat * 16 + s.bm.toNat) ^^^ n.toNat = s.bu.toNat * 16 + (s.bm.toNat ^^^ n.toNat) := by
    apply Nat.eq_of_testBit_eq
    intro j
    have e (m : Nat) (hm : m < 2 ^ 4) :
        (s.bu.toNat * 16 + m).testBit j = if j < 4 then m.testBit j else s.bu.toNat.testBit (j - 4) := by
      rw [Nat.mul_comm]; exact Nat.testBit_two_pow_mul_add (i := 4) _ hm j
    have hx : s.bm.toNat ^^^ n.toNat < 2 ^ 4 := Nat.xor_lt_two_pow hm (by omega)
    rw [Nat.testBit_xor, e _ hm, e _ hx]
    split_ifs with h
    · rw [Nat.testBit_xor]
    · have : n.toNat.testBit j = false := Nat.testBit_lt_two_pow (lt_of_lt_of_le hn (Nat.pow_le_pow_right (by omega) (by omega)))
      rw [this, Bool.xor_false]
  have lhs : s.bu.toNat * 256 + s.bm.toNat * 16 + s.bl.toNat = (s.bu.toNat * 16 + s.bm.toNat) * 16 + s.bl.toNat := by
    omega
  rw [b_toNat, digit, lhs, xor_shifted _ _ _ hl, top]; omega

theorem incNibble_toNat (v : Nibble) : (incNibble v).toNat = (v.toNat + 1) % 16 := by
  simp [incNibble, BitVec.toNat_add]

theorem decNibble_toNat (v : Nibble) : (decNibble v).toNat = (v.toNat + 15) % 16 := by
  simp [decNibble, BitVec.toNat_add]

theorem sumNibble_toNat (n : Nat) : (sumNibble n).toNat = n % 16 := by
  simp [sumNibble, BitVec.toNat_ofNat]

theorem carryOut_iff {n : Nat} : carryOut n = true ↔ 16 ≤ n := by simp [carryOut]

theorem lbTableAddr_toNat (i : Nibble) : (lbTableAddr i).toNat = 0x0C0 + i.toNat := by
  revert i; decide

theorem tmPointerAddr_toNat (k : BitVec 6) : (tmPointerAddr k).toNat = 0x0C0 + k.toNat := by
  revert k; decide

theorem tmEntry_toNat (w : RomWord) : (tmEntry w).toNat = 0x100 + w.toNat := by
  have := w.isLt
  simp only [tmEntry, BitVec.toNat_append]
  rw [← Nat.shiftLeft_add_eq_or_of_lt this]; rfl

theorem inPage_toNat (p : Addr) (field : BitVec 6) : (inPage p field).toNat = p.toNat / 64 * 64 + field.toNat := by
  have hp := p.isLt; have hf := field.isLt
  simp only [inPage, BitVec.toNat_append]
  rw [← Nat.shiftLeft_add_eq_or_of_lt hf]
  simp only [Nat.shiftLeft_eq, BitVec.extractLsb'_toNat, Nat.shiftRight_eq_div_pow]; omega

theorem lowDigit_toNat (sa : Addr) : (lowDigit sa).toNat = sa.toNat % 16 := by
  simp [lowDigit, BitVec.extractLsb'_toNat]

theorem shiftInDigit_toNat (d : Nibble) (sa : Addr) :
    (shiftInDigit d sa).toNat = d.toNat * 256 + sa.toNat / 16 := by
  have hs := sa.isLt
  have h8 : (sa.extractLsb' 4 8).toNat < 2 ^ 8 := (sa.extractLsb' 4 8).isLt
  simp only [shiftInDigit, BitVec.toNat_append]
  rw [← Nat.shiftLeft_add_eq_or_of_lt h8]
  simp only [Nat.shiftLeft_eq, BitVec.extractLsb'_toNat, Nat.shiftRight_eq_div_pow]; omega

end Sys2Proof.Machine
end

