-- ==== Sys2Proof/Laws/PerInstr.lean ====
section
/-! SUPPORT. Two statements about every instruction as syntax, one lemma per constructor: its encoding has its length
(R70), and the first word of its encoding has its string class (R35). -/

open Sys2Proof

/-- `i` occupies as many ROM words as its encoding has. -/
def Sys2Proof.Laws.EncodedLength.Statement (i : Instr) : Prop := (encode i).length = i.words

theorem Sys2Proof.Laws.EncodedLength.lb (i : Nibble) : EncodedLength.Statement (.lb i) := rfl
theorem Sys2Proof.Laws.EncodedLength.lbl (v : RomWord) : EncodedLength.Statement (.lbl v) := rfl
theorem Sys2Proof.Laws.EncodedLength.sag : EncodedLength.Statement .sag := rfl
theorem Sys2Proof.Laws.EncodedLength.labl : EncodedLength.Statement .labl := rfl
theorem Sys2Proof.Laws.EncodedLength.incb : EncodedLength.Statement .incb := rfl
theorem Sys2Proof.Laws.EncodedLength.decb : EncodedLength.Statement .decb := rfl
theorem Sys2Proof.Laws.EncodedLength.xabl : EncodedLength.Statement .xabl := rfl
theorem Sys2Proof.Laws.EncodedLength.lbua : EncodedLength.Statement .lbua := rfl
theorem Sys2Proof.Laws.EncodedLength.lbmx : EncodedLength.Statement .lbmx := rfl
theorem Sys2Proof.Laws.EncodedLength.xbmx : EncodedLength.Statement .xbmx := rfl
theorem Sys2Proof.Laws.EncodedLength.cys : EncodedLength.Statement .cys := rfl
theorem Sys2Proof.Laws.EncodedLength.ld (n : BitVec 3) : EncodedLength.Statement (.ld n) := rfl
theorem Sys2Proof.Laws.EncodedLength.ex (n : BitVec 3) : EncodedLength.Statement (.ex n) := rfl
theorem Sys2Proof.Laws.EncodedLength.exd (n : BitVec 3) : EncodedLength.Statement (.exd n) := rfl
theorem Sys2Proof.Laws.EncodedLength.xs : EncodedLength.Statement .xs := rfl
theorem Sys2Proof.Laws.EncodedLength.xax : EncodedLength.Statement .xax := rfl
theorem Sys2Proof.Laws.EncodedLength.lax : EncodedLength.Statement .lax := rfl
theorem Sys2Proof.Laws.EncodedLength.lxa : EncodedLength.Statement .lxa := rfl
theorem Sys2Proof.Laws.EncodedLength.ldi (n : Nibble) : EncodedLength.Statement (.ldi n) := rfl
theorem Sys2Proof.Laws.EncodedLength.rtn : EncodedLength.Statement .rtn := rfl
theorem Sys2Proof.Laws.EncodedLength.rtnsk : EncodedLength.Statement .rtnsk := rfl
theorem Sys2Proof.Laws.EncodedLength.t (field : BitVec 6) : EncodedLength.Statement (.t field) := rfl
theorem Sys2Proof.Laws.EncodedLength.tl (target : Addr) : EncodedLength.Statement (.tl target) := rfl
theorem Sys2Proof.Laws.EncodedLength.tml (target : Addr) : EncodedLength.Statement (.tml target) := rfl
theorem Sys2Proof.Laws.EncodedLength.tm (k : BitVec 6) : EncodedLength.Statement (.tm k) := rfl
theorem Sys2Proof.Laws.EncodedLength.ad : EncodedLength.Statement .ad := rfl
theorem Sys2Proof.Laws.EncodedLength.adc : EncodedLength.Statement .adc := rfl
theorem Sys2Proof.Laws.EncodedLength.adcsk : EncodedLength.Statement .adcsk := rfl
theorem Sys2Proof.Laws.EncodedLength.adsk : EncodedLength.Statement .adsk := rfl
theorem Sys2Proof.Laws.EncodedLength.and : EncodedLength.Statement .and := rfl
theorem Sys2Proof.Laws.EncodedLength.or : EncodedLength.Statement .or := rfl
theorem Sys2Proof.Laws.EncodedLength.eor : EncodedLength.Statement .eor := rfl
theorem Sys2Proof.Laws.EncodedLength.comp : EncodedLength.Statement .comp := rfl
theorem Sys2Proof.Laws.EncodedLength.adi (n : Nibble) : EncodedLength.Statement (.adi n) := rfl
theorem Sys2Proof.Laws.EncodedLength.dc : EncodedLength.Statement .dc := rfl
theorem Sys2Proof.Laws.EncodedLength.dia : EncodedLength.Statement .dia := rfl
theorem Sys2Proof.Laws.EncodedLength.dib : EncodedLength.Statement .dib := rfl
theorem Sys2Proof.Laws.EncodedLength.doa : EncodedLength.Statement .doa := rfl
theorem Sys2Proof.Laws.EncodedLength.iol (cmd : RomWord) : EncodedLength.Statement (.iol cmd) := rfl
theorem Sys2Proof.Laws.EncodedLength.skz : EncodedLength.Statement .skz := rfl
theorem Sys2Proof.Laws.EncodedLength.skf2 : EncodedLength.Statement .skf2 := rfl
theorem Sys2Proof.Laws.EncodedLength.skf1 : EncodedLength.Statement .skf1 := rfl
theorem Sys2Proof.Laws.EncodedLength.skc : EncodedLength.Statement .skc := rfl
theorem Sys2Proof.Laws.EncodedLength.skbi (n : Nibble) : EncodedLength.Statement (.skbi n) := rfl
theorem Sys2Proof.Laws.EncodedLength.rf1 : EncodedLength.Statement .rf1 := rfl
theorem Sys2Proof.Laws.EncodedLength.sf1 : EncodedLength.Statement .sf1 := rfl
theorem Sys2Proof.Laws.EncodedLength.sf2 : EncodedLength.Statement .sf2 := rfl
theorem Sys2Proof.Laws.EncodedLength.sc : EncodedLength.Statement .sc := rfl
theorem Sys2Proof.Laws.EncodedLength.rc : EncodedLength.Statement .rc := rfl
theorem Sys2Proof.Laws.EncodedLength.rf2 : EncodedLength.Statement .rf2 := rfl

/-- The class of the first word of a well-formed `i` is the class of `i`. -/
def Sys2Proof.Laws.FirstWordClass.Statement (i : Instr) : Prop :=
  i.wf = true → ∃ w rest, encode i = w :: rest ∧ wordClass w = i.stringClass

theorem Sys2Proof.Laws.FirstWordClass.lb (i : Nibble) : FirstWordClass.Statement (.lb i) := fun _ =>
  ⟨_, _, rfl, (by decide : ∀ i : Nibble, wordClass (0b1100#4 ++ i) = .lb) i⟩
theorem Sys2Proof.Laws.FirstWordClass.lbl (v : RomWord) : FirstWordClass.Statement (.lbl v) := fun _ => ⟨_, _, rfl, rfl⟩
theorem Sys2Proof.Laws.FirstWordClass.sag : FirstWordClass.Statement .sag := fun _ => ⟨_, _, rfl, rfl⟩
theorem Sys2Proof.Laws.FirstWordClass.labl : FirstWordClass.Statement .labl := fun _ => ⟨_, _, rfl, rfl⟩
theorem Sys2Proof.Laws.FirstWordClass.incb : FirstWordClass.Statement .incb := fun _ => ⟨_, _, rfl, rfl⟩
theorem Sys2Proof.Laws.FirstWordClass.decb : FirstWordClass.Statement .decb := fun _ => ⟨_, _, rfl, rfl⟩
theorem Sys2Proof.Laws.FirstWordClass.xabl : FirstWordClass.Statement .xabl := fun _ => ⟨_, _, rfl, rfl⟩
theorem Sys2Proof.Laws.FirstWordClass.lbua : FirstWordClass.Statement .lbua := fun _ => ⟨_, _, rfl, rfl⟩
theorem Sys2Proof.Laws.FirstWordClass.lbmx : FirstWordClass.Statement .lbmx := fun _ => ⟨_, _, rfl, rfl⟩
theorem Sys2Proof.Laws.FirstWordClass.xbmx : FirstWordClass.Statement .xbmx := fun _ => ⟨_, _, rfl, rfl⟩
theorem Sys2Proof.Laws.FirstWordClass.cys : FirstWordClass.Statement .cys := fun _ => ⟨_, _, rfl, rfl⟩
theorem Sys2Proof.Laws.FirstWordClass.ld (n : BitVec 3) : FirstWordClass.Statement (.ld n) := fun _ =>
  ⟨_, _, rfl, (by decide : ∀ n : BitVec 3, wordClass (0b00110#5 ++ ~~~n) = .none) n⟩
theorem Sys2Proof.Laws.FirstWordClass.ex (n : BitVec 3) : FirstWordClass.Statement (.ex n) := fun _ =>
  ⟨_, _, rfl, (by decide : ∀ n : BitVec 3, wordClass (0b00111#5 ++ ~~~n) = .none) n⟩
theorem Sys2Proof.Laws.FirstWordClass.exd (n : BitVec 3) : FirstWordClass.Statement (.exd n) := fun _ =>
  ⟨_, _, rfl, (by decide : ∀ n : BitVec 3, wordClass (0b00101#5 ++ ~~~n) = .none) n⟩
theorem Sys2Proof.Laws.FirstWordClass.xs : FirstWordClass.Statement .xs := fun _ => ⟨_, _, rfl, rfl⟩
theorem Sys2Proof.Laws.FirstWordClass.xax : FirstWordClass.Statement .xax := fun _ => ⟨_, _, rfl, rfl⟩
theorem Sys2Proof.Laws.FirstWordClass.lax : FirstWordClass.Statement .lax := fun _ => ⟨_, _, rfl, rfl⟩
theorem Sys2Proof.Laws.FirstWordClass.lxa : FirstWordClass.Statement .lxa := fun _ => ⟨_, _, rfl, rfl⟩
theorem Sys2Proof.Laws.FirstWordClass.ldi (n : Nibble) : FirstWordClass.Statement (.ldi n) := fun _ =>
  ⟨_, _, rfl, (by decide : ∀ n : Nibble, wordClass (0b0111#4 ++ ~~~n) = .ldi) n⟩
theorem Sys2Proof.Laws.FirstWordClass.rtn : FirstWordClass.Statement .rtn := fun _ => ⟨_, _, rfl, rfl⟩
theorem Sys2Proof.Laws.FirstWordClass.rtnsk : FirstWordClass.Statement .rtnsk := fun _ => ⟨_, _, rfl, rfl⟩
theorem Sys2Proof.Laws.FirstWordClass.t (field : BitVec 6) : FirstWordClass.Statement (.t field) := fun _ =>
  ⟨_, _, rfl, (by decide : ∀ field : BitVec 6, wordClass (0b10#2 ++ field) = .none) field⟩
theorem Sys2Proof.Laws.FirstWordClass.tl (target : Addr) : FirstWordClass.Statement (.tl target) := fun _ =>
  ⟨_, _, rfl, (by decide : ∀ d : Nibble, wordClass (0b0101#4 ++ d) = .none) _⟩
theorem Sys2Proof.Laws.FirstWordClass.tml (target : Addr) : FirstWordClass.Statement (.tml target) := fun h => by
  have h100 : 0x100 ≤ target.toNat ∧ target.toNat ≤ 0x3FF := by simpa [Instr.wf, tmlEncodable] using h
  have hd : (target.extractLsb' 8 4).toNat ≠ 0 := by
    rw [BitVec.extractLsb'_toNat, Nat.shiftRight_eq_div_pow]; omega
  exact ⟨_, _, rfl, (by decide : ∀ d : Nibble, d.toNat ≠ 0 → wordClass (0b0000#4 ++ d) = .none) _ hd⟩
theorem Sys2Proof.Laws.FirstWordClass.tm (k : BitVec 6) : FirstWordClass.Statement (.tm k) := fun h =>
  ⟨_, _, rfl, (by decide : ∀ k : BitVec 6, tmEncodable k = true → wordClass (0b11#2 ++ k) = .none) k h⟩
theorem Sys2Proof.Laws.FirstWordClass.ad : FirstWordClass.Statement .ad := fun _ => ⟨_, _, rfl, rfl⟩
theorem Sys2Proof.Laws.FirstWordClass.adc : FirstWordClass.Statement .adc := fun _ => ⟨_, _, rfl, rfl⟩
theorem Sys2Proof.Laws.FirstWordClass.adcsk : FirstWordClass.Statement .adcsk := fun _ => ⟨_, _, rfl, rfl⟩
theorem Sys2Proof.Laws.FirstWordClass.adsk : FirstWordClass.Statement .adsk := fun _ => ⟨_, _, rfl, rfl⟩
theorem Sys2Proof.Laws.FirstWordClass.and : FirstWordClass.Statement .and := fun _ => ⟨_, _, rfl, rfl⟩
theorem Sys2Proof.Laws.FirstWordClass.or : FirstWordClass.Statement .or := fun _ => ⟨_, _, rfl, rfl⟩
theorem Sys2Proof.Laws.FirstWordClass.eor : FirstWordClass.Statement .eor := fun _ => ⟨_, _, rfl, rfl⟩
theorem Sys2Proof.Laws.FirstWordClass.comp : FirstWordClass.Statement .comp := fun _ => ⟨_, _, rfl, rfl⟩
theorem Sys2Proof.Laws.FirstWordClass.adi (n : Nibble) : FirstWordClass.Statement (.adi n) := fun _ =>
  ⟨_, _, rfl, (by decide : ∀ n : Nibble, wordClass (0b0110#4 ++ ~~~n) = .none) n⟩
theorem Sys2Proof.Laws.FirstWordClass.dc : FirstWordClass.Statement .dc := fun _ => ⟨_, _, rfl, rfl⟩
theorem Sys2Proof.Laws.FirstWordClass.dia : FirstWordClass.Statement .dia := fun _ => ⟨_, _, rfl, rfl⟩
theorem Sys2Proof.Laws.FirstWordClass.dib : FirstWordClass.Statement .dib := fun _ => ⟨_, _, rfl, rfl⟩
theorem Sys2Proof.Laws.FirstWordClass.doa : FirstWordClass.Statement .doa := fun _ => ⟨_, _, rfl, rfl⟩
theorem Sys2Proof.Laws.FirstWordClass.iol (cmd : RomWord) : FirstWordClass.Statement (.iol cmd) := fun _ => ⟨_, _, rfl, rfl⟩
theorem Sys2Proof.Laws.FirstWordClass.skz : FirstWordClass.Statement .skz := fun _ => ⟨_, _, rfl, rfl⟩
theorem Sys2Proof.Laws.FirstWordClass.skf2 : FirstWordClass.Statement .skf2 := fun _ => ⟨_, _, rfl, rfl⟩
theorem Sys2Proof.Laws.FirstWordClass.skf1 : FirstWordClass.Statement .skf1 := fun _ => ⟨_, _, rfl, rfl⟩
theorem Sys2Proof.Laws.FirstWordClass.skc : FirstWordClass.Statement .skc := fun _ => ⟨_, _, rfl, rfl⟩
theorem Sys2Proof.Laws.FirstWordClass.skbi (n : Nibble) : FirstWordClass.Statement (.skbi n) := fun _ =>
  ⟨_, _, rfl, (by decide : ∀ n : Nibble, wordClass (0b0100#4 ++ n) = .none) n⟩
theorem Sys2Proof.Laws.FirstWordClass.rf1 : FirstWordClass.Statement .rf1 := fun _ => ⟨_, _, rfl, rfl⟩
theorem Sys2Proof.Laws.FirstWordClass.sf1 : FirstWordClass.Statement .sf1 := fun _ => ⟨_, _, rfl, rfl⟩
theorem Sys2Proof.Laws.FirstWordClass.sf2 : FirstWordClass.Statement .sf2 := fun _ => ⟨_, _, rfl, rfl⟩
theorem Sys2Proof.Laws.FirstWordClass.sc : FirstWordClass.Statement .sc := fun _ => ⟨_, _, rfl, rfl⟩
theorem Sys2Proof.Laws.FirstWordClass.rc : FirstWordClass.Statement .rc := fun _ => ⟨_, _, rfl, rfl⟩
theorem Sys2Proof.Laws.FirstWordClass.rf2 : FirstWordClass.Statement .rf2 := fun _ => ⟨_, _, rfl, rfl⟩
end

