-- ==== Sys2Proof/Laws/Step.lean ====
section
/-! SUPPORT. What a step can do, said once: it ignores a word by the skip, or an instruction by the string rule, or
executes the instruction that the words at P spell. Proofs about `step` start from `step_cases`. -/

namespace Sys2Proof.Machine

/-- No meaning ends in a fault or a refusal (R210). -/
theorem exec_is_next (i : Instr) (s : State) : ∃ t, exec i s = .next t := by
  cases i <;> exact ⟨_, rfl⟩

theorem step_eq (s : State) : step s = stepWith exec s := rfl

/-- The three branches of R36. -/
theorem step_cases (s : State) :
    (s.skip = true ∧ step s = .next (ignoreBySkip (romWord s s.p) (beginStep s))) ∨
    (s.skip = false ∧ stringIgnores (wordClass (romWord s s.p)) s.last = true ∧
      step s = .next (ignoreByString (romWord s s.p) (beginStep s))) ∨
    (s.skip = false ∧ stringIgnores (wordClass (romWord s s.p)) s.last = false ∧
      ∃ t, exec (decodeWords (romWord s s.p) (romWord (beginStep s) (s.p + 1#12)))
          (fetchSecond (romWord s s.p) (beginStep s)) = .next t ∧
        step s = .next (endStep (wordClass (romWord s s.p))
          (recordExecuted (decodeWords (romWord s s.p) (romWord (beginStep s) (s.p + 1#12))) t))) := by
  cases hk : s.skip with
  | true => exact .inl ⟨rfl, stepWith_skip _ hk⟩
  | false =>
    cases hi : stringIgnores (wordClass (romWord s s.p)) s.last with
    | true => exact .inr (.inl ⟨rfl, rfl, stepWith_string _ hk hi⟩)
    | false =>
      obtain ⟨t, ht⟩ := exec_is_next (decodeWords (romWord s s.p) (romWord (beginStep s) (s.p + 1#12)))
        (fetchSecond (romWord s s.p) (beginStep s))
      refine .inr (.inr ⟨rfl, rfl, t, ht, ?_⟩)
      rw [step_eq, stepWith_execute _ hk hi, executeWord, beginStep_p, ht]; rfl

/-- A run of `k + 1` steps is a step and a run of `k`. -/
theorem run_succ_of_next {k : Nat} {s t : State} (h : step s = .next t) :
    Host.Core.run Sys2Proof.core (k + 1) s = Host.Core.run Sys2Proof.core k t := by
  have unfoldOnce (M : Host.Core) (s t : M.State) (h : M.step s = .next t) :
      Host.Core.run M (k + 1) s = Host.Core.run M k t := by
    show (match M.step s with
      | .next s' => Host.Core.run M k s'
      | .fault r => .fault r
      | .refused r => .refused r) = _
    rw [h]
  exact unfoldOnce Sys2Proof.core s t h

end Sys2Proof.Machine
end

