-- ==== Sys2Proof/Laws/Written.lean ====
section
/-! SUPPORT. What the record of writes can do: no instruction takes a write back. -/

namespace Sys2Proof.Machine

@[simp] theorem StackRecord.copy_ne_never (r : StackRecord) : r.copy ≠ .never := by cases r <;> decide

variable (i : Instr) (w : Written)

theorem recordWrites_a (h : w.a = true) : (recordWrites i w).a = true := by cases i <;> first | rfl | exact h
theorem recordWrites_x (h : w.x = true) : (recordWrites i w).x = true := by cases i <;> first | rfl | exact h
theorem recordWrites_bu (h : w.bu = true) : (recordWrites i w).bu = true := by cases i <;> first | rfl | exact h
theorem recordWrites_bm (h : w.bm = true) : (recordWrites i w).bm = true := by cases i <;> first | rfl | exact h
theorem recordWrites_bl (h : w.bl = true) : (recordWrites i w).bl = true := by cases i <;> first | rfl | exact h
theorem recordWrites_c (h : w.c = true) : (recordWrites i w).c = true := by cases i <;> first | rfl | exact h
theorem recordWrites_ff1 (h : w.ff1 = true) : (recordWrites i w).ff1 = true := by cases i <;> first | rfl | exact h
theorem recordWrites_ff2 (h : w.ff2 = true) : (recordWrites i w).ff2 = true := by cases i <;> first | rfl | exact h
theorem recordWrites_doa (h : w.doa = true) : (recordWrites i w).doa = true := by cases i <;> first | rfl | exact h

theorem recordWrites_sa (h : w.sa ≠ .never) : (recordWrites i w).sa ≠ .never := by
  cases i <;> first | exact h | exact StackRecord.copy_ne_never _ | nofun

theorem recordWrites_sb (h : w.sb ≠ .never) : (recordWrites i w).sb ≠ .never := by
  cases i <;> first | exact h | exact StackRecord.copy_ne_never _ | nofun

end Sys2Proof.Machine
end

