-- ==== Sys2Proof/Tests/Slice0.lean ====
section
/-! SUPPORT. The model's own tests. Expected values come from the worked examples of the instruction rules and from the
vectors V1 to V142 of spec/95_test_vectors.md, words written out from spec/30_encoding.md. The last part shows, for each
statement with hypotheses, states and operands that meet them. -/

namespace Sys2Proof.Tests
open Sys2Proof.Machine

/-! ### WellFormed refuses what has no encoding (R78) -/

theorem test_wf_adi_zero_refused : (Instr.adi 0#4).wf = false := by decide
theorem test_wf_adi_ten_refused : (Instr.adi 10#4).wf = false := by decide
theorem test_wf_tml_below_page_four_refused : (Instr.tml 0x0FF#12).wf = false := by decide
theorem test_wf_tml_above_page_fifteen_refused : (Instr.tml 0x400#12).wf = false := by decide
theorem test_wf_tm_below_table_refused : (Instr.tm 0x0F#6).wf = false := by decide

/-! ### Decoding: every constructor from its word (R71, R72, R73, R74) -/

/-- What the decoder makes of exactly these words. -/
def reads (ws : List RomWord) : Option Instr :=
  match decode ws with
  | .ok (i, []) => some i
  | _ => none

theorem test_decode_data_address :
    reads [0b11000011#8] = some (.lb 3#4) ∧ reads [0b00000000#8, 0b11101111#8] = some (.lbl 0x10#8) ∧
    reads [0b00010011#8] = some .sag ∧ reads [0b00010001#8] = some .labl ∧
    reads [0b00010111#8] = some .incb ∧ reads [0b00011111#8] = some .decb ∧
    reads [0b00011001#8] = some .xabl ∧ reads [0b00000100#8] = some .lbua ∧
    reads [0b00010000#8] = some .lbmx ∧ reads [0b00011000#8] = some .xbmx := by decide

theorem test_decode_data_transfer :
    reads [0b01101111#8] = some .cys ∧ reads [0b00110110#8] = some (.ld 1#3) ∧
    reads [0b00111010#8] = some (.ex 5#3) ∧ reads [0b00101110#8] = some (.exd 1#3) ∧
    reads [0b00000110#8] = some .xs ∧ reads [0b00011010#8] = some .xax ∧
    reads [0b00010010#8] = some .lax ∧ reads [0b00011011#8] = some .lxa ∧
    reads [0b01111100#8] = some (.ldi 3#4) := by decide

theorem test_decode_control_transfer :
    reads [0b00000101#8] = some .rtn ∧ reads [0b00000111#8] = some .rtnsk ∧
    reads [0b10000010#8] = some (.t 0x02#6) ∧ reads [0b01010011#8, 0b01111010#8] = some (.tl 0x37A#12) ∧
    reads [0b00000011#8, 0b11111111#8] = some (.tml 0x3FF#12) ∧ reads [0b11010000#8] = some (.tm 0x10#6) := by decide

theorem test_decode_arithmetic_logic :
    reads [0b00001011#8] = some .ad ∧ reads [0b00001010#8] = some .adc ∧
    reads [0b00001000#8] = some .adcsk ∧ reads [0b00001001#8] = some .adsk ∧
    reads [0b00001101#8] = some .and ∧ reads [0b00001111#8] = some .or ∧
    reads [0b00001100#8] = some .eor ∧ reads [0b00001110#8] = some .comp ∧
    reads [0b01101001#8] = some (.adi 6#4) ∧ reads [0b01101010#8] = some (.adi 5#4) ∧
    reads [0b01100101#8] = some .dc := by decide

theorem test_decode_input_output :
    reads [0b00100111#8] = some .dia ∧ reads [0b00100011#8] = some .dib ∧
    reads [0b00011101#8] = some .doa ∧ reads [0b00011100#8, 0b01000010#8] = some (.iol 0x42#8) := by decide

theorem test_decode_skip_and_flags :
    reads [0b00011110#8] = some .skz ∧ reads [0b00010100#8] = some .skf2 ∧ reads [0b00010110#8] = some .skf1 ∧
    reads [0b00010101#8] = some .skc ∧ reads [0b01001011#8] = some (.skbi 11#4) ∧
    reads [0b00100110#8] = some .rf1 ∧ reads [0b00100010#8] = some .sf1 ∧ reads [0b00100001#8] = some .sf2 ∧
    reads [0b00100000#8] = some .sc ∧ reads [0b00100100#8] = some .rc ∧ reads [0b00100101#8] = some .rf2 := by decide

/-- The only lists that are refused end too soon. -/
theorem test_decode_short_lists_refused :
    reads [] = none ∧ reads [0x00#8] = none ∧ reads [0x1C#8] = none ∧ reads [0x5F#8] = none := by decide

/-- The table's numbering: the second word is bits 15 to 8. -/
theorem test_decode_table_word :
    decodeTableWord 16 0x7A53 = some (.tl 0x37A#12) ∧ decodeTableWord 16 0x421C = some (.iol 0x42#8) ∧
    decodeTableWord 8 0x13 = some .sag ∧ decodeTableWord 8 0x00 = some (.lbl 0xFF#8) := by decide

/-! ### One step of each instruction -/

/-- The state the vectors start from: the words at address `p`, one table word at 0x0C3 and one at 0x0D0 of page 3,
the RAM and the four registers given; everything else as after reset. -/
def start (p : Addr) (words : List RomWord) (a : Nibble) (b : Addr) (ram : Memory 4) : State :=
  let rom := words.zipIdx.foldl (fun m wk => Memory.write m (p + BitVec.ofNat 12 wk.2).toNat wk.1)
    [(0x0C3, 0xDC#8), (0x0D0, 0x40#8)]
  { State.reset with
    rom := rom, p := p, a := a, bu := b.extractLsb' 8 4, bm := b.extractLsb' 4 4, bl := b.extractLsb' 0 4,
    ram := ram, sa := 0x222#12, sb := 0x333#12 }

/-- What `f` sees in the state after one step. -/
def after {α : Type} (f : State → α) (s : State) : Option α :=
  match step s with
  | .next t => some (f t)
  | _ => none

-- R100, V1.
theorem test_lb : after (fun t => (t.p, t.b, t.sa, t.sb, t.last)) (start 0x010 [0xC3] 0 0xFFF []) =
    some (0x011#12, 0x023#12, 0x222#12, 0x011#12, .lb) := by decide
-- V4, second step: an LB after an LBL is ignored, and SB keeps its value.
theorem test_lb_ignored : after (fun t => (t.p, t.b, t.sb, t.last))
    { start 0x012 [0xC3] 0 0x010 [] with last := .lb } = some (0x013#12, 0x010#12, 0x333#12, .lb) := by decide
-- R101, V7.
theorem test_lbl : after (fun t => (t.p, t.b, t.sa, t.sb, t.last)) (start 0x010 [0x00, 0xEF] 0 0xABC []) =
    some (0x012#12, 0x010#12, 0x222#12, 0x333#12, .lb) := by decide
-- V11: the second word is fetched from 0x000.
theorem test_lbl_at_wrap : after (fun t => (t.p, t.b)) (start 0xFFF [0x00, 0xED] 0 0x000 []) =
    some (0x001#12, 0x012#12) := by decide
-- V139: an ignored LBL is passed over whole.
theorem test_lbl_ignored : after (fun t => (t.p, t.b, t.last))
    { start 0x010 [0x00, 0xEF] 0 0x333 [] with last := .lb } = some (0x012#12, 0x333#12, .lb) := by decide
-- R102, V13.
theorem test_sag : after (fun t => (t.sagf, t.b, t.skip)) (start 0x010 [0x13] 0 0x5A3 []) =
    some (true, 0x5A3#12, false) := by decide
-- R103, V19.
theorem test_labl : after (fun t => (t.a, t.b)) (start 0x010 [0x11] 0 0x12C []) = some (0xC#4, 0x12C#12) := by decide
-- R104, V20 and V22.
theorem test_incb_wraps : after (fun t => (t.b, t.skip)) (start 0x010 [0x17] 0 0x04F []) =
    some (0x040#12, true) := by decide
theorem test_incb_to_fifteen : after (fun t => (t.b, t.skip)) (start 0x010 [0x17] 0 0xFFE []) =
    some (0xFFF#12, false) := by decide
-- R105, V23 and V24.
theorem test_decb_wraps : after (fun t => (t.b, t.skip)) (start 0x010 [0x1F] 0 0x040 []) =
    some (0x04F#12, true) := by decide
theorem test_decb_to_zero : after (fun t => (t.b, t.skip)) (start 0x010 [0x1F] 0 0x041 []) =
    some (0x040#12, false) := by decide
-- R106, V25.
theorem test_xabl : after (fun t => (t.a, t.b)) (start 0x010 [0x19] 0x3 0x12C []) = some (0xC#4, 0x123#12) := by decide
-- R107, V27: the word at the address with the old BU.
theorem test_lbua : after (fun t => (t.a, t.b))
    (start 0x010 [0x04] 0x2 0x045 [(0x045, 0x7#4), (0x245, 0x1#4)]) = some (0x7#4, 0x245#12) := by decide
-- V17, second step.
theorem test_lbua_after_sag : after (fun t => (t.a, t.b, t.sagf))
    { start 0x010 [0x04] 0x2 0x5A3 [(0x003, 0x9#4), (0x5A3, 0x1#4)] with sagf := true } =
    some (0x9#4, 0x2A3#12, false) := by decide
-- R108, V28.
theorem test_lbmx : after (fun t => (t.x, t.b)) { start 0x010 [0x10] 0 0x123 [] with x := 0xA#4 } =
    some (0xA#4, 0x1A3#12) := by decide
-- R109, V29.
theorem test_xbmx : after (fun t => (t.x, t.b)) { start 0x010 [0x18] 0 0x123 [] with x := 0xA#4 } =
    some (0x2#4, 0x1A3#12) := by decide

-- R120, V30.
theorem test_cys : after (fun t => (t.a, t.sa)) { start 0x010 [0x6F] 0xF 0 [] with sa := 0x123#12 } =
    some (0x3#4, 0xF12#12) := by decide
-- R121, V33 and V35: the XOR leaves B(8) alone.
theorem test_ld : after (fun t => (t.a, t.b)) (start 0x010 [0x36] 0 0x025 [(0x025, 0x9#4)]) =
    some (0x9#4, 0x035#12) := by decide
theorem test_ld_keeps_bit_eight : after (fun t => (t.a, t.b)) (start 0x010 [0x30] 0 0x1F5 [(0x1F5, 0x4#4)]) =
    some (0x4#4, 0x185#12) := by decide
-- R122, V37: the write goes to the old address.
theorem test_ex : after (fun t => (t.a, t.b, t.ram))
    (start 0x010 [0x3A] 0x4 0x025 [(0x025, 0x9#4), (0x075, 0x1#4)]) =
    some (0x9#4, 0x075#12, [(0x025, 0x4#4), (0x075, 0x1#4)]) := by decide
-- V15, second step: read and write at 0x003, the XOR on the real B.
theorem test_ex_after_sag : after (fun t => (t.a, t.b, t.ram))
    { start 0x010 [0x3E] 0x6 0x5A3 [(0x003, 0x9#4), (0x5A3, 0x1#4)] with sagf := true } =
    some (0x9#4, 0x5B3#12, [(0x003, 0x6#4), (0x5A3, 0x1#4)]) := by decide
-- R123, V38 and V40.
theorem test_exd_wraps : after (fun t => (t.a, t.b, t.ram, t.skip)) (start 0x010 [0x2E] 0x0 0x010 [(0x010, 0x6#4)]) =
    some (0x6#4, 0x00F#12, [(0x010, 0x0#4)], true) := by decide
theorem test_exd_no_skip : after (fun t => (t.a, t.b, t.ram, t.skip)) (start 0x010 [0x28] 0x1 0xF81 [(0xF81, 0x2#4)]) =
    some (0x2#4, 0xFF0#12, [(0xF81, 0x1#4)], false) := by decide
-- R124, V41.
theorem test_xs : after (fun t => (t.sa, t.sb)) (start 0x010 [0x06] 0 0 []) = some (0x333#12, 0x222#12) := by decide
-- R125, V42; R126, V43; R127, V44.
theorem test_xax : after (fun t => (t.a, t.x)) { start 0x010 [0x1A] 0x1 0 [] with x := 0xE#4 } =
    some (0xE#4, 0x1#4) := by decide
theorem test_lax : after (fun t => (t.a, t.x)) { start 0x010 [0x12] 0x1 0 [] with x := 0xE#4 } =
    some (0xE#4, 0xE#4) := by decide
theorem test_lxa : after (fun t => (t.a, t.x)) { start 0x010 [0x1B] 0x1 0 [] with x := 0xE#4 } =
    some (0x1#4, 0x1#4) := by decide
-- R128, V46 and V138.
theorem test_ldi : after (fun t => (t.p, t.a, t.last)) (start 0x010 [0x70] 0x9 0 []) =
    some (0x011#12, 0xF#4, .ldi) := by decide
theorem test_ldi_ignored : after (fun t => (t.p, t.a, t.last)) { start 0x010 [0x7E] 0x7 0 [] with last := .ldi } =
    some (0x011#12, 0x7#4, .ldi) := by decide

-- R141, V54; R142, V56.
theorem test_rtn : after (fun t => (t.p, t.sa, t.sb, t.skip))
    { start 0x010 [0x05] 0 0 [] with sa := 0x005#12, sb := 0x222#12 } =
    some (0x005#12, 0x222#12, 0x005#12, false) := by decide
theorem test_rtnsk : after (fun t => (t.p, t.sa, t.sb, t.skip))
    { start 0x010 [0x07] 0 0 [] with sa := 0x005#12, sb := 0x222#12 } =
    some (0x005#12, 0x222#12, 0x005#12, true) := by decide
-- R143, V58 and V60: at 0xFFF the advanced P is 0x000.
theorem test_t : after (fun t => t.p) (start 0x044 [0x82] 0 0 []) = some 0x042#12 := by decide
theorem test_t_at_wrap : after (fun t => t.p) (start 0xFFF [0xBF] 0 0 []) = some 0x03F#12 := by decide
-- R144, V62.
theorem test_tl : after (fun t => (t.p, t.sa, t.sb)) (start 0x010 [0x53, 0x7A] 0 0 []) =
    some (0x37A#12, 0x222#12, 0x333#12) := by decide
-- R145, V65 and V66.
theorem test_tml : after (fun t => (t.p, t.sa, t.sb)) (start 0x003 [0x01, 0x00] 0 0 []) =
    some (0x100#12, 0x005#12, 0x222#12) := by decide
theorem test_tml_highest : after (fun t => (t.p, t.sa)) (start 0x0FE [0x03, 0xFF] 0 0 []) =
    some (0x3FF#12, 0x100#12) := by decide
-- R146, V67 and V68.
theorem test_tm : after (fun t => (t.p, t.sa, t.sb)) (start 0x001 [0xD0] 0 0 []) =
    some (0x140#12, 0x002#12, 0x222#12) := by decide
theorem test_tm_highest : after (fun t => (t.p, t.sa))
    { start 0x200 [0xFF] 0 0 [] with rom := [(0x0FF, 0xFF#8), (0x200, 0xFF#8)] } =
    some (0x1FF#12, 0x201#12) := by decide

/-- A, C and SKIP after a one-word addition of `m` at 0x020. -/
def sum (w : RomWord) (a m : Nibble) (c : Bool) : Option (Nibble × Bool × Bool) :=
  after (fun t => (t.a, t.c, t.skip)) { start 0x010 [w] a 0x020 [(0x020, m)] with c := c }

-- R161, V73 and V75; R162, V77 and V79; R163, V81 and V82; R164, V88 and V87.
theorem test_ad_carries : sum 0x0B 0xF 0xF false = some (0xE, true, false) := by decide
theorem test_ad_ignores_old_carry : sum 0x0B 0x1 0x2 true = some (0x3, false, false) := by decide
theorem test_adc_carries : sum 0x0A 0xF 0xF true = some (0xF, true, false) := by decide
theorem test_adc_uses_carry : sum 0x0A 0x0 0x0 true = some (0x1, false, false) := by decide
theorem test_adcsk_skips : sum 0x08 0xD 0x5 false = some (0x2, true, true) := by decide
theorem test_adcsk_old_carry_no_skip : sum 0x08 0x0 0x0 true = some (0x1, false, false) := by decide
theorem test_adsk_skips : sum 0x09 0xF 0x1 false = some (0x0, true, true) := by decide
theorem test_adsk_old_carry_no_skip : sum 0x09 0x1 0x2 true = some (0x3, false, false) := by decide
-- R165, V89; R166, V90; R167, V91: C stays 1.
theorem test_and : sum 0x0D 0xC 0xA true = some (0x8, true, false) := by decide
theorem test_or : sum 0x0F 0xC 0xA true = some (0xE, true, false) := by decide
theorem test_eor : sum 0x0C 0xC 0xA true = some (0x6, true, false) := by decide
-- V142: AD with SAGF = 1 reads 0x003.
theorem test_ad_after_sag : after (fun t => (t.a, t.b, t.sagf))
    { start 0x010 [0x0B] 0x1 0x123 [(0x003, 0x4#4), (0x123, 0x8#4)] with sagf := true } =
    some (0x5#4, 0x123#12, false) := by decide
-- R168, V93.
theorem test_comp : after (fun t => (t.a, t.c)) { start 0x010 [0x0E] 0x5 0 [] with c := true } =
    some (0xA#4, true) := by decide
-- R169, V96 and V97; R170, V105.
theorem test_adi_skips : sum 0x69 0xA 0x0 false = some (0x0, false, true) := by decide
theorem test_adi_stored_zero_adds_fifteen : sum 0x60 0x0 0x0 false = some (0xF, false, false) := by decide
theorem test_dc_wraps_without_skip : sum 0x65 0xF 0x0 true = some (0x9, true, false) := by decide

/-- The environment of V108 and V109: inputs A = 5, inputs B = 0xC, and the bus reply of V111. -/
def env : World := { samplesA := [0x5#4], samplesB := [0xC#4], replies := [0xA#4], events := [] }

-- R181, V108; R182, V109; R183, V110; R184, V111.
theorem test_dia : after (fun t => (t.a, t.world.events)) { start 0x010 [0x27] 0 0 [] with world := env } =
    some (0x5#4, [.discreteIn .a 0x5#4]) := by decide
theorem test_dib : after (fun t => (t.a, t.world.events)) { start 0x010 [0x23] 0 0 [] with world := env } =
    some (0xC#4, [.discreteIn .b 0xC#4]) := by decide
theorem test_doa : after (fun t => (t.a, t.doa, t.world.events)) (start 0x010 [0x1D] 0x9 0 []) =
    some (0x9#4, 0x9#4, [.discreteOut 0x9#4]) := by decide
theorem test_iol : after (fun t => (t.p, t.a, t.world.events)) { start 0x010 [0x1C, 0x42] 0x3 0 [] with world := env } =
    some (0x012#12, 0x5#4, [.ioTransact 0x42#8 0xC#4 0xA#4]) := by decide

-- R191, V116 and V117.
theorem test_skz : after (fun t => (t.p, t.skip)) (start 0x010 [0x1E] 0x0 0 []) = some (0x011#12, true) := by decide
theorem test_skz_not : after (fun t => (t.p, t.skip)) (start 0x010 [0x1E] 0x8 0 []) = some (0x011#12, false) := by decide
-- R192, V118 and V119; R193, V120 and V121.
theorem test_skf2 : after (fun t => t.skip) { start 0x010 [0x14] 0 0 [] with ff2 := true } = some true := by decide
theorem test_skf2_not : after (fun t => t.skip) { start 0x010 [0x14] 0 0 [] with ff1 := true } = some false := by decide
theorem test_skf1 : after (fun t => t.skip) { start 0x010 [0x16] 0 0 [] with ff1 := true } = some true := by decide
theorem test_skf1_not : after (fun t => t.skip) { start 0x010 [0x16] 0 0 [] with ff2 := true } = some false := by decide
-- R194, V122 and V123.
theorem test_skc : after (fun t => (t.c, t.skip)) { start 0x010 [0x15] 0 0 [] with c := true } =
    some (true, true) := by decide
theorem test_skc_not : after (fun t => t.skip) (start 0x010 [0x15] 0 0 []) = some false := by decide
-- R195, V124 and V125.
theorem test_skbi : after (fun t => t.skip) (start 0x010 [0x44] 0 0x124 []) = some true := by decide
theorem test_skbi_not_complemented : after (fun t => t.skip) (start 0x010 [0x4B] 0 0x124 []) = some false := by decide
-- R196 to R201, V127 to V132.
theorem test_rf1 : after (fun t => (t.ff1, t.ff2, t.c))
    { start 0x010 [0x26] 0 0 [] with ff1 := true, ff2 := true, c := true } = some (false, true, true) := by decide
theorem test_sf1 : after (fun t => (t.ff1, t.ff2, t.c)) (start 0x010 [0x22] 0 0 []) =
    some (true, false, false) := by decide
theorem test_sf2 : after (fun t => (t.ff1, t.ff2, t.c)) (start 0x010 [0x21] 0 0 []) =
    some (false, true, false) := by decide
theorem test_sc : after (fun t => (t.ff1, t.ff2, t.c)) (start 0x010 [0x20] 0 0 []) =
    some (false, false, true) := by decide
theorem test_rc : after (fun t => (t.ff1, t.ff2, t.c))
    { start 0x010 [0x24] 0 0 [] with ff1 := true, ff2 := true, c := true } = some (true, true, false) := by decide
theorem test_rf2 : after (fun t => (t.ff1, t.ff2, t.c))
    { start 0x010 [0x25] 0 0 [] with ff1 := true, ff2 := true, c := true } = some (true, false, true) := by decide

/-! ### The step rule itself -/

-- V140, and V51 and V52 at their second step: the skipped word and the parameter.
theorem test_step_skips_one_word : after (fun t => (t.p, t.c, t.skip, t.last))
    { start 0x010 [0x20] 0 0 [] with skip := true } = some (0x011#12, false, false, .none) := by decide
theorem test_step_skipped_word_counts : after (fun t => (t.a, t.skip, t.last))
    { start 0x010 [0x7F] 0x5 0 [] with
      skip := true, platform := { Platform.standard with skippedWordCountsInString := true } } =
    some (0x5#4, false, .ldi) := by decide
-- V136 and V137.
theorem test_step_p_wraps : after (fun t => t.p) (start 0xFFF [0x24] 0 0 []) = some 0x000#12 := by decide
theorem test_step_p_carries_over_a_page : after (fun t => t.p) (start 0x03F [0x24] 0 0 []) = some 0x040#12 := by decide
-- A word placed where the machine fetches runs as the first instruction after reset.
theorem test_step_runs_placed_word : after (fun t => (t.p, t.c)) (State.reset.withFetchWord 8 0x20) =
    some (0x001#12, true) := by decide
theorem test_step_runs_placed_pair : after (fun t => t.p) (State.reset.withFetchWord 16 0x7A53) =
    some 0x37A#12 := by decide
-- R244.
theorem test_cycles : cycles (.lb 0) = 2 ∧ cycles (.tm 0x10) = 2 ∧ cycles (.t 0) = 1 ∧
    stepCycles { start 0x010 [0x00, 0xEF] 0 0 [] with last := .lb } = 2 := by decide

/-! ### Reads of what nothing has written (R218, R231) -/

/-- Does the record stop an instruction of word `w`, executed after the instructions `before`? -/
def unwrittenAfter (before : List Instr) (w : RomWord) : Bool :=
  hazardAt .registerNeverWritten
    { start 0x010 [w, 0x00] 0 0 [] with written := before.foldl (fun r i => recordWrites i r) .nothing }

-- R231a: B before the first RAM access; b: A; f: X.
theorem test_hazard_b_a_x : unwrittenAfter [] 0x37 = true ∧ unwrittenAfter [.lbl 0x10] 0x37 = false ∧
    unwrittenAfter [] 0x1E = true ∧ unwrittenAfter [.ldi 1] 0x1E = false ∧
    unwrittenAfter [] 0x12 = true ∧ unwrittenAfter [.lxa] 0x12 = false := by decide
-- R231c: C before ADC, ADCSK and SKC; d: FF1 and FF2.
theorem test_hazard_flip_flops : unwrittenAfter [.lbl 0, .ldi 1] 0x0A = true ∧
    unwrittenAfter [.lbl 0, .ldi 1, .rc] 0x0A = false ∧ unwrittenAfter [] 0x15 = true ∧
    unwrittenAfter [.sf2] 0x16 = true ∧ unwrittenAfter [.sf1] 0x16 = false ∧
    unwrittenAfter [.sf1] 0x14 = true ∧ unwrittenAfter [.rf2] 0x14 = false := by decide
-- R231g: RTN before a call, and a second RTN after one call; LB loads SB.
theorem test_hazard_return_stack : unwrittenAfter [] 0x05 = true ∧ unwrittenAfter [.tm 0x10] 0x05 = false ∧
    unwrittenAfter [.tm 0x10, .rtn] 0x05 = true ∧ unwrittenAfter [.tm 0x10, .tm 0x11, .rtn] 0x07 = false ∧
    unwrittenAfter [.tm 0x10, .lb 0, .rtn] 0x05 = false ∧ unwrittenAfter [] 0x06 = true := by decide
-- R56: after a SAG only BL is read.
theorem test_hazard_after_sag : hazardAt .registerNeverWritten
    { start 0x010 [0x0B] 0 0 [] with
      sagf := true, written := { Written.nothing with a := true, bl := true } } = false := by decide
-- R231h: the outputs are unspecified until the first DOA.
theorem test_outputs_unspecified : (start 0x010 [0x1D] 0x9 0 []).shownOutput = none ∧
    after (fun t => t.shownOutput) (start 0x010 [0x1D] 0x9 0 []) = some (some 0x9#4) := by decide

/-! ### Witnesses: the hypotheses of each statement are met -/

theorem witness_decoding_an_encoded : (Instr.adi 1#4).wf = true ∧ (Instr.adi 9#4).wf = true ∧
    (Instr.adi 11#4).wf = true ∧ (Instr.adi 15#4).wf = true ∧ (Instr.tml 0x100#12).wf = true ∧
    (Instr.tml 0x3FF#12).wf = true ∧ (Instr.tm 0x10#6).wf = true ∧ (Instr.tm 0x3F#6).wf = true := by decide

theorem witness_encoding_a_decoded : decode [0x53#8, 0x7A#8, 0x00#8] = .ok (.tl 0x37A#12, [0x00#8]) := rfl

/-- Also of POutsideTransfersAdvancesByTheWordsFetched: an LBL whose second word is behind the wrap. -/
theorem witness_step_runs_the_decoded :
    let s := start 0xFFF [0x00, 0xED] 0 0 []
    decode [romWord s s.p, romWord (beginStep s) (s.p + 1#12)] = .ok (.lbl 0x12#8, []) ∧
      Executes (Instr.lbl 0x12#8).stringClass s ∧
      (Memory.read s.rom s.p.toNat).isSome = true ∧ (Memory.read s.rom (s.p + 1#12).toNat).isSome = true :=
  ⟨rfl, ⟨rfl, .inr (by decide)⟩, rfl, rfl⟩

/-- Of StepAlwaysAnswersANextState: a step after which every record still says that nothing was written. -/
theorem witness_never_written : after (fun t => t.written) (start 0x010 [0x82] 0 0 []) = some .nothing := by decide

theorem witness_skip_ignores :
    let s := { start 0x010 [0x20] 0 0 [] with skip := true }
    s.skip = true ∧ s.platform.skippedWordCountsInString = false := by decide

-- V141.
theorem witness_second_word_of_a_skipped :
    let s := { start 0x010 [0x00, 0x20, 0x24] 0 0x333 [] with skip := true }
    s.skip = true ∧ s.platform.skippedWordCountsInString = false ∧ HoldsRom s s.p 0x00#8 ∧
      isTwoWord 0x00#8 = true ∧ HoldsRom s (s.p + 1#12) 0x20#8 ∧ HoldsRom s (s.p + 2#12) 0x24#8 ∧
      decode [0x20#8, 0x24#8] = .ok (.sc, [0x24#8]) :=
  ⟨rfl, rfl, rfl, rfl, rfl, rfl, rfl⟩

/-- Also of the third clauses of LbLoadsB… and LblLoadsB…, and of LdiLoadsA… for both values of LAST. -/
theorem witness_string_rule :
    (let s := { start 0x010 [0xC0] 0 0 [] with last := .lb }
     s.skip = false ∧ HoldsRom s s.p 0xC0#8 ∧ s.last = wordClass 0xC0#8 ∧ s.last = .lb) ∧
    (let s := { start 0x010 [0xCF] 0 0 [] with last := .lb }
     s.skip = false ∧ HoldsRom s s.p 0xCF#8 ∧ s.last = wordClass 0xCF#8 ∧ s.last = .lb) ∧
    (let s := { start 0xFFF [0x00, 0xEF] 0 0 [] with last := .lb }
     s.skip = false ∧ HoldsRom s s.p 0x00#8 ∧ s.last = wordClass 0x00#8 ∧ s.last = .lb) ∧
    (let s := { start 0x010 [0x7F] 0 0 [] with last := .ldi }
     s.skip = false ∧ HoldsRom s s.p 0x7F#8 ∧ s.last = wordClass 0x7F#8 ∧ s.last = .ldi) ∧
    (let s := start 0x010 [0x70] 0 0 []
     s.skip = false ∧ HoldsRom s s.p 0x70#8 ∧ s.last ≠ .ldi) :=
  ⟨⟨rfl, rfl, rfl, rfl⟩, ⟨rfl, rfl, rfl, rfl⟩, ⟨rfl, rfl, rfl, rfl⟩, ⟨rfl, rfl, rfl, rfl⟩, rfl, rfl, by decide⟩

/-- The lists of `POutsideTransfers…` and `OnlySkipInstructions…`: an LB is no transfer. -/
theorem witness_p_outside_transfers : match Instr.lb 3#4 with
    | .rtn | .rtnsk | .t _ | .tl _ | .tml _ | .tm _ => False | _ => True := trivial

theorem standard_populated (s : State) (h : s.platform = Platform.standard) (adr : Addr) :
    ramPopulated s adr = true := by
  have := adr.isLt
  simp [ramPopulated, h, Platform.standard]; omega

/-- Of EveryStepKeepsTheInvariant and EveryRunGoesOn…: a state with RAM and ROM and a pending skip. -/
theorem witness_inv : Inv { start 0x010 [0x20] 0 0 [(0x003, 0x9#4), (0xFFF, 0x1#4)] with skip := true } where
  ramCanonical := rfl
  romCanonical := rfl
  ramInPopulated adr h := by rw [standard_populated _ rfl] at h; cases h
  noSagNow := rfl
  notBoth := by decide
  skipLast _ := rfl
  sagLast _ := rfl

theorem witness_inv_of_reset : Inv State.reset :=
  ⟨rfl, rfl, fun _ _ => rfl, rfl, by decide, fun _ => rfl, fun _ => rfl⟩

theorem witness_reset_meets : Memory.wf [(0x000, 0x7F#8), (0xFFF, 0x24#8)] = true := by decide

theorem witness_first_step :
    let s := State.resetWith Platform.standard [(0x000, 0x53#8), (0x001, 0x7A#8)] env
    AfterReset s ∧ HoldsRom s s.platform.resetP 0x53#8 ∧ HoldsRom s (s.platform.resetP + 1#12) 0x7A#8 ∧
      decode [0x53#8, 0x7A#8] = .ok (.tl 0x37A#12, []) :=
  ⟨⟨rfl, rfl, rfl, rfl, rfl, rfl⟩, rfl, rfl, rfl⟩

/-- A step that changes RAM, one that sets SKIP, one that sets SAGF, one that records an event: the inner premises of
the four `Only…` and `Sagf…` statements. -/
theorem witness_only :
    after (fun t => decide (ramContent t 0x025#12 ≠ ramContent (start 0x010 [0x3F] 0x4 0x025 [(0x025, 0x9#4)]) 0x025#12))
      (start 0x010 [0x3F] 0x4 0x025 [(0x025, 0x9#4)]) = some true ∧
    after (fun t => t.skip) (start 0x010 [0x1E] 0 0 []) = some true ∧
    after (fun t => t.sagf) (start 0x010 [0x13] 0 0 []) = some true ∧
    after (fun t => t.world.events.length) (start 0x010 [0x1D] 0 0 []) = some 1 := by decide

/-- A T to itself in the first word of a page and in the last word that can hold one. -/
theorem witness_ended : Ended (start 0x000 [0x80] 0 0 []) ∧ Ended (start 0x03E [0xBE] 0 0 []) :=
  ⟨⟨rfl, 0x00#6, rfl, rfl⟩, rfl, 0x3E#6, rfl, rfl⟩

theorem witness_placed : decodeTableWord 16 0xFF03 = some (.tml 0x3FF#12) ∧
    decodeTableWord 8 0xD0 = some (.tm 0x10#6) := by decide

/-- RAM at two addresses, B at the first; `u` reads the second after the store to the first. -/
theorem witness_stored_word :
    let s := start 0x010 [0x3F] 0x4 0x025 [(0x025, 0x9#4), (0xFFF, 0x1#4)]
    ramPopulated s (ramAddr s) = true ∧ ∃ t, exec (.ex 0) s = .next t ∧
      (∃ u : State, u.ram = t.ram ∧ u.platform = t.platform ∧ ramAddr u = ramAddr s) ∧
      (∃ u : State, u.ram = t.ram ∧ u.platform = t.platform ∧ ramAddr u ≠ ramAddr s ∧
        ramContent s (ramAddr u) = some 0x1#4) :=
  ⟨rfl, _, rfl, ⟨_, rfl, rfl, rfl⟩,
    { start 0x010 [] 0 0xFFF [] with ram := [(0x025, 0x4#4), (0xFFF, 0x1#4)] }, rfl, rfl, by decide, rfl⟩

theorem witness_unpopulated :
    let s := { start 0x010 [] 0 0x100 [] with
      platform := { Platform.standard with ramPopulated := [{ lo := 0, hi := 0x0FF }] } }
    ramPopulated s (ramAddr s) = false := by decide

theorem witness_canonical : Memory.wf [(0, 0x1#4), (4095, 0x2#4)] = true ∧
    ∀ n, Memory.read [(0, 0x1#4), (4095, 0x2#4)] n = Memory.read [(0, 0x1#4), (4095, 0x2#4)] n :=
  ⟨by decide, fun _ => rfl⟩

theorem witness_sag : ({ start 0x010 [0x37] 0 0x5A3 [] with sagf := true } : State).sagf = true := rfl

/-- Of the clauses on listed ROM and populated RAM in LB, TM and the instructions that read RAM. -/
theorem witness_listed_and_populated :
    let s := start 0x010 [0xC3] 0 0xFFF []
    (Memory.read s.rom (0x0C0 + 3)).isSome = true ∧ (Memory.read s.rom (0x0C0 + 0x10)).isSome = true ∧
      ramPopulated s (ramAddr s) = true := by decide

theorem witness_tml : 0x100 ≤ (0x100#12).toNat ∧ (0x100#12).toNat ≤ 0x3FF ∧ 0x100 ≤ (0x3FF#12).toNat ∧
    (0x3FF#12).toNat ≤ 0x3FF := by decide

theorem witness_tm : 0x10 ≤ (0x10#6).toNat ∧ 0x10 ≤ (0x3F#6).toNat := by decide

theorem witness_additions : ∀ i ∈ [Instr.ad, .adc, .adcsk, .adsk], i ∈ [Instr.ad, .adc, .adcsk, .adsk] := by decide

theorem witness_adi : (1#4 ≠ 0#4 ∧ 1#4 ≠ 10#4) ∧ (9#4 ≠ 0#4 ∧ 9#4 ≠ 10#4) ∧ (11#4 ≠ 0#4 ∧ 11#4 ≠ 10#4) ∧
    (15#4 ≠ 0#4 ∧ 15#4 ≠ 10#4) := by decide

theorem witness_decimal :
    let s := start 0x010 [] 9 0x025 [(0x025, 9#4)]
    s.skip = false ∧ s.a.toNat ≤ 9 ∧ (ramWord s (ramAddr s)).toNat ≤ 9 := by decide

end Sys2Proof.Tests
end

section
/-! SUPPORT. Encoding (spec/30_encoding.md R79): the proof that every two ROM words begin with an instruction. -/

namespace Sys2Proof
open Sys2Proof.Machine

/-- The decoder answers on every first word with a word after it (R70, R79): the first word decides whether the second is
part of the instruction or left over. -/
theorem decode_cons_cons (w w2 : RomWord) (rest : List RomWord) :
    decode (w :: w2 :: rest) = .ok (decodeWords w w2, if isTwoWord w then rest else w2 :: rest) := by
  cases h : isTwoWord w with
  | true => exact decode_twoWord h w2 rest
  | false => rw [decodeWords_of_oneWord h w2 0x00#8]; exact decode_oneWord h (w2 :: rest)

/-- Settles O3: the decoder answers `decodeWords`, whose instruction is well-formed and never stops. -/
theorem everyWordIsAnInstruction : Obligations.EveryWordIsAnInstruction := by
  intro w w2 rest
  exact ⟨decodeWords w w2, _, decode_cons_cons w w2 rest, wf_decodeWords w w2, exec_is_next (decodeWords w w2)⟩

end Sys2Proof
end

section
/-! SUPPORT. How a frame and an encoding are proved: the frame of one register write, the frame of two changes in a row,
and the encoding of an instruction of one ROM word. -/

namespace Sys2Proof.Machine

theorem Field.same_trans {f : Field} {s t u : State} (hst : f.same s t) (htu : f.same t u) : f.same s u := by
  cases f
  case ram => exact fun adr => (htu adr).trans (hst adr)
  all_goals exact Eq.trans htu hst

/-- Two changes in a row change no more than both of them may. -/
theorem SameExcept.trans {ws vs : List Field} {s t u : State} (hst : SameExcept ws s t) (htu : SameExcept vs t u) :
    SameExcept (ws ++ vs) s u := by
  intro f hf
  rw [List.mem_append, not_or] at hf
  obtain ⟨hws, hvs⟩ := hf
  exact Field.same_trans (hst f hws) (htu f hvs)

theorem sameExcept_set_a (s : State) (v : Nibble) : SameExcept [.a] s { s with a := v } := by
  intro f hf
  cases f
  case a => exact absurd (List.mem_singleton_self _) hf
  case ram => exact ramContent_congr rfl rfl
  all_goals rfl

theorem sameExcept_set_x (s : State) (v : Nibble) : SameExcept [.x] s { s with x := v } := by
  intro f hf
  cases f
  case x => exact absurd (List.mem_singleton_self _) hf
  case ram => exact ramContent_congr rfl rfl
  all_goals rfl

theorem sameExcept_set_bm (s : State) (v : Nibble) : SameExcept [.bm] s { s with bm := v } := by
  intro f hf
  cases f
  case bm => exact absurd (List.mem_singleton_self _) hf
  case ram => exact ramContent_congr rfl rfl
  all_goals rfl

theorem sameExcept_set_bl (s : State) (v : Nibble) : SameExcept [.bl] s { s with bl := v } := by
  intro f hf
  cases f
  case bl => exact absurd (List.mem_singleton_self _) hf
  case ram => exact ramContent_congr rfl rfl
  all_goals rfl

/-- R70: an instruction is coded by the one word it is encoded as when that word reads as it. -/
theorem codedAs_oneWord {i : Instr} {w : RomWord} {n : Nat} (hw : isTwoWord w = false) (hencode : encode i = [w])
    (hread : decodeWords w 0x00#8 = i) (hcycles : cycles i = n) : CodedAs i [w] n := by
  subst hread
  exact ⟨hencode, decode_oneWord hw [], by rw [words_decodeWords, hw]; rfl, hcycles⟩

end Sys2Proof.Machine
end

section
/-! SUPPORT. Data address (spec/40_data_address.md R103, R106, R108, R109): the moves between A and BL and between X
and BM. -/

namespace Sys2Proof
open Sys2Proof.Machine

theorem exec_labl (s : State) : exec .labl s = .next { s with a := s.bl } := rfl

theorem exec_xabl (s : State) : exec .xabl s = .next { s with a := s.bl, bl := s.a } := rfl

theorem exec_lbmx (s : State) : exec .lbmx s = .next { s with bm := s.x } := rfl

theorem exec_xbmx (s : State) : exec .xbmx s = .next { s with x := s.bm, bm := s.x } := rfl

/-- Settles O33: LABL is one register write and XABL two, of the old values. -/
theorem lablAndXablMoveBetweenAAndBl : Obligations.LablAndXablMoveBetweenAAndBl := by
  refine ⟨codedAs_oneWord rfl rfl rfl rfl, codedAs_oneWord rfl rfl rfl rfl, fun s => ⟨?labl, ?xabl⟩⟩
  case labl => exact ⟨_, exec_labl s, rfl, sameExcept_set_a s s.bl⟩
  case xabl => exact ⟨_, exec_xabl s, rfl, rfl, (sameExcept_set_a s s.bl).trans (sameExcept_set_bl _ s.a)⟩

/-- Settles O36: LBMX is one register write and XBMX two, of the old values. -/
theorem lbmxAndXbmxMoveBetweenXAndBm : Obligations.LbmxAndXbmxMoveBetweenXAndBm := by
  refine ⟨codedAs_oneWord rfl rfl rfl rfl, codedAs_oneWord rfl rfl rfl rfl, fun s => ⟨?lbmx, ?xbmx⟩⟩
  case lbmx => exact ⟨_, exec_lbmx s, rfl, sameExcept_set_bm s s.x⟩
  case xbmx => exact ⟨_, exec_xbmx s, rfl, rfl, (sameExcept_set_x s s.bm).trans (sameExcept_set_bm _ s.x)⟩

end Sys2Proof
end

section
/-! SUPPORT. Data transfer (spec/41_data_transfer.md R124 to R127): the exchange of SA and SB, and the moves between A
and X. -/

namespace Sys2Proof
open Sys2Proof.Machine

theorem sameExcept_set_sa (s : State) (v : Addr) : SameExcept [.sa] s { s with sa := v } := by
  intro f hf
  cases f
  case sa => exact absurd (List.mem_singleton_self _) hf
  case ram => exact ramContent_congr rfl rfl
  all_goals rfl

theorem sameExcept_set_sb (s : State) (v : Addr) : SameExcept [.sb] s { s with sb := v } := by
  intro f hf
  cases f
  case sb => exact absurd (List.mem_singleton_self _) hf
  case ram => exact ramContent_congr rfl rfl
  all_goals rfl

theorem exec_xs (s : State) : exec .xs s = .next { s with sa := s.sb, sb := s.sa } := rfl

theorem exec_xax (s : State) : exec .xax s = .next { s with a := s.x, x := s.a } := rfl

theorem exec_lax (s : State) : exec .lax s = .next { s with a := s.x } := rfl

theorem exec_lxa (s : State) : exec .lxa s = .next { s with x := s.a } := rfl

/-- Settles O42: LAX and LXA are one register write each, XS and XAX two, of the old values. -/
theorem registerTransfersAndExchanges : Obligations.RegisterTransfersAndExchanges := by
  refine ⟨codedAs_oneWord rfl rfl rfl rfl, codedAs_oneWord rfl rfl rfl rfl, codedAs_oneWord rfl rfl rfl rfl,
    codedAs_oneWord rfl rfl rfl rfl, fun s => ⟨?xs, ?xax, ?lax, ?lxa⟩⟩
  case xs => exact ⟨_, exec_xs s, rfl, rfl, (sameExcept_set_sa s s.sb).trans (sameExcept_set_sb _ s.sa)⟩
  case xax => exact ⟨_, exec_xax s, rfl, rfl, (sameExcept_set_a s s.x).trans (sameExcept_set_x _ s.a)⟩
  case lax => exact ⟨_, exec_lax s, rfl, sameExcept_set_a s s.x⟩
  case lxa => exact ⟨_, exec_lxa s, rfl, sameExcept_set_x s s.a⟩

end Sys2Proof
end

section
/-! SUPPORT. Control transfer (spec/42_control_transfer.md R144): the encoding of an instruction of two ROM words, the two
words of an address, and the transfer to any ROM address. -/

namespace Sys2Proof
open Sys2Proof.Machine

/-- R70: an instruction is coded by the two words it is encoded as when those words read as it. -/
theorem codedAs_twoWord {i : Instr} {w w2 : RomWord} {n : Nat} (hw : isTwoWord w = true) (hencode : encode i = [w, w2])
    (hread : decodeWords w w2 = i) (hcycles : cycles i = n) : CodedAs i [w, w2] n := by
  subst hread
  exact ⟨hencode, decode_twoWord hw w2 [], by rw [words_decodeWords, hw]; rfl, hcycles⟩

theorem addr_toNat_div (a : Addr) : a.toNat / 256 = (a.extractLsb' 8 4).toNat := by
  have ha := a.isLt
  rw [BitVec.extractLsb'_toNat, Nat.shiftRight_eq_div_pow]; omega

theorem ofNat_addr_mod (a : Addr) : BitVec.ofNat 8 (a.toNat % 256) = a.extractLsb' 0 8 := by
  apply BitVec.eq_of_toNat_eq
  simp [BitVec.extractLsb'_toNat]

/-- The first word of TL as a number: 0x50 and the top digit of the target. -/
theorem tl_firstWord (d : Nibble) : BitVec.ofNat 8 (0x50 + d.toNat) = 0b0101#4 ++ d := by
  revert d; decide

theorem isTwoWord_tl (d : Nibble) : isTwoWord (0b0101#4 ++ d) = true := by
  revert d; decide

theorem sameExcept_set_p (s : State) (v : Addr) : SameExcept [.p] s { s with p := v } := by
  intro f hf
  cases f
  case p => exact absurd (List.mem_singleton_self _) hf
  case ram => exact ramContent_congr rfl rfl
  all_goals rfl

theorem exec_tl (target : Addr) (s : State) : exec (.tl target) s = .next { s with p := target } := rfl

/-- Settles O46: the two words are the target's top digit behind 0x50 and its low eight bits, and the one register write
is of P. -/
theorem tlTransfersAnywhere : Obligations.TlTransfersAnywhere := by
  intro target
  refine ⟨?coded, fun s => ⟨_, exec_tl target s, rfl, sameExcept_set_p s target⟩⟩
  case coded =>
    have hread : decodeWords (0b0101#4 ++ target.extractLsb' 8 4) (target.extractLsb' 0 8) = .tl target := by
      rw [decodeWords_tl, addr_split]
    rw [addr_toNat_div, tl_firstWord, ofNat_addr_mod]
    exact codedAs_twoWord (isTwoWord_tl _) rfl hread rfl

end Sys2Proof
end

section
/-! SUPPORT. Skips and flip-flops (spec/45_skip_and_flags.md R196 to R201): the frame of a write of one flip-flop, and what
the six instructions that set or reset one do. -/

namespace Sys2Proof.Machine

/-- An element listed as written that nevertheless keeps its value can leave the list. -/
theorem SameExcept.narrow {l l' : List Field} {s t : State} (h : SameExcept l s t)
    (hkept : ∀ f ∈ l, f ∉ l' → f.same s t) : SameExcept l' s t := by
  intro f hf
  by_cases hl : f ∈ l
  · exact hkept f hl hf
  · exact h f hl

theorem sameExcept_set_flipFlops (s : State) (v1 v2 vc : Bool) :
    SameExcept [.ff1, .ff2, .c] s { s with ff1 := v1, ff2 := v2, c := vc } := by
  intro f hf
  cases f
  case ff1 | ff2 | c => simp at hf
  case ram => exact ramContent_congr rfl rfl
  all_goals rfl

theorem sameExcept_set_ff1 (s : State) (v : Bool) : SameExcept [.ff1] s { s with ff1 := v } :=
  (sameExcept_set_flipFlops s v s.ff2 s.c).narrow (by simp [Field.same])

theorem sameExcept_set_ff2 (s : State) (v : Bool) : SameExcept [.ff2] s { s with ff2 := v } :=
  (sameExcept_set_flipFlops s s.ff1 v s.c).narrow (by simp [Field.same])

theorem sameExcept_set_c (s : State) (v : Bool) : SameExcept [.c] s { s with c := v } :=
  (sameExcept_set_flipFlops s s.ff1 s.ff2 v).narrow (by simp [Field.same])

theorem exec_rf1 (s : State) : exec .rf1 s = .next { s with ff1 := false } := rfl

theorem exec_sf1 (s : State) : exec .sf1 s = .next { s with ff1 := true } := rfl

theorem exec_sf2 (s : State) : exec .sf2 s = .next { s with ff2 := true } := rfl

theorem exec_sc (s : State) : exec .sc s = .next { s with c := true } := rfl

theorem exec_rc (s : State) : exec .rc s = .next { s with c := false } := rfl

theorem exec_rf2 (s : State) : exec .rf2 s = .next { s with ff2 := false } := rfl

end Sys2Proof.Machine

namespace Sys2Proof
open Sys2Proof.Machine

/-- Settles O60: each of the six is coded by its one word and is one write of the flip-flop it names. -/
theorem flipFlopInstructions : Obligations.FlipFlopInstructions := by
  refine ⟨codedAs_oneWord rfl rfl rfl rfl, codedAs_oneWord rfl rfl rfl rfl, codedAs_oneWord rfl rfl rfl rfl,
    codedAs_oneWord rfl rfl rfl rfl, codedAs_oneWord rfl rfl rfl rfl, codedAs_oneWord rfl rfl rfl rfl,
    fun s => ⟨?rf1, ?sf1, ?sf2, ?sc, ?rc, ?rf2⟩⟩
  case rf1 => exact ⟨_, exec_rf1 s, rfl, sameExcept_set_ff1 s false⟩
  case sf1 => exact ⟨_, exec_sf1 s, rfl, sameExcept_set_ff1 s true⟩
  case sf2 => exact ⟨_, exec_sf2 s, rfl, sameExcept_set_ff2 s true⟩
  case sc => exact ⟨_, exec_sc s, rfl, sameExcept_set_c s true⟩
  case rc => exact ⟨_, exec_rc s, rfl, sameExcept_set_c s false⟩
  case rf2 => exact ⟨_, exec_rf2 s, rfl, sameExcept_set_ff2 s false⟩

end Sys2Proof
end

section
/-! SUPPORT. The round trip of the encoder and the decoder (spec/30_encoding.md R70, R79 to R81), the length and
the class of a first word (R35, R70), and the encoding part of every instruction's rule (R13). -/

namespace Sys2Proof
open Sys2Proof.Machine

/-! ### Decoding what was encoded -/

/-- One ROM word is a whole instruction when its length is one and it reads as that instruction. -/
theorem decode_singleton {w : RomWord} {i : Instr} (h : isTwoWord w = false ∧ decodeWords w 0x00#8 = i) :
    decode [w] = .ok (i, []) := by
  obtain ⟨hone, hread⟩ := h
  rw [decode_oneWord hone, hread]

/-- Words after an instruction do not change what is read. -/
theorem decode_append {ws : List RomWord} {i : Instr} (h : decode ws = .ok (i, [])) (rest : List RomWord) :
    decode (ws ++ rest) = .ok (i, rest) := by
  match ws, h with
  | [], h => cases h
  | [w], h =>
    cases hw : isTwoWord w with
    | true => simp [decode, hw] at h
    | false =>
      rw [decode_oneWord hw] at h
      cases h
      exact decode_oneWord hw rest
  | w :: w2 :: ws, h =>
    rw [decode_cons_cons] at h
    rw [List.cons_append, List.cons_append, decode_cons_cons]
    cases hw : isTwoWord w <;> simp_all

theorem isTwoWord_tml {d : Nibble} (h : d.toNat ≤ 3) : isTwoWord (0b0000#4 ++ d) = true := by
  revert d; decide

/-- R80: the words of a well-formed instruction spell it. The operand forms are read field by field, every other
instruction is one fixed word. -/
theorem decode_encode (i : Instr) (h : i.wf = true) : decode (encode i) = .ok (i, []) := by
  cases i
  case lb i =>
    exact decode_singleton ((by decide : ∀ i : Nibble,
      isTwoWord (0b1100#4 ++ i) = false ∧ decodeWords (0b1100#4 ++ i) 0x00#8 = .lb i) i)
  case ldi n =>
    exact decode_singleton ((by decide : ∀ n : Nibble,
      isTwoWord (0b0111#4 ++ ~~~n) = false ∧ decodeWords (0b0111#4 ++ ~~~n) 0x00#8 = .ldi n) n)
  case skbi n =>
    exact decode_singleton ((by decide : ∀ n : Nibble,
      isTwoWord (0b0100#4 ++ n) = false ∧ decodeWords (0b0100#4 ++ n) 0x00#8 = .skbi n) n)
  case ld n =>
    exact decode_singleton ((by decide : ∀ n : BitVec 3,
      isTwoWord (0b00110#5 ++ ~~~n) = false ∧ decodeWords (0b00110#5 ++ ~~~n) 0x00#8 = .ld n) n)
  case ex n =>
    exact decode_singleton ((by decide : ∀ n : BitVec 3,
      isTwoWord (0b00111#5 ++ ~~~n) = false ∧ decodeWords (0b00111#5 ++ ~~~n) 0x00#8 = .ex n) n)
  case exd n =>
    exact decode_singleton ((by decide : ∀ n : BitVec 3,
      isTwoWord (0b00101#5 ++ ~~~n) = false ∧ decodeWords (0b00101#5 ++ ~~~n) 0x00#8 = .exd n) n)
  case t field =>
    exact decode_singleton ((by decide : ∀ field : BitVec 6,
      isTwoWord (0b10#2 ++ field) = false ∧ decodeWords (0b10#2 ++ field) 0x00#8 = .t field) field)
  case tm k =>
    exact decode_singleton ((by decide : ∀ k : BitVec 6, tmEncodable k = true →
      isTwoWord (0b11#2 ++ k) = false ∧ decodeWords (0b11#2 ++ k) 0x00#8 = .tm k) k h)
  case adi n =>
    exact decode_singleton ((by decide : ∀ n : Nibble, adiEncodable n = true →
      isTwoWord (0b0110#4 ++ ~~~n) = false ∧ decodeWords (0b0110#4 ++ ~~~n) 0x00#8 = .adi n) n h)
  case lbl v => rw [encode, decode_twoWord rfl, decodeWords_lbl, BitVec.not_not]
  case iol cmd => rw [encode, decode_twoWord rfl, decodeWords_iol]
  case tl target => rw [encode, decode_twoWord (isTwoWord_tl _), decodeWords_tl, addr_split]
  case tml target =>
    have hrange : 0x100 ≤ target.toNat ∧ target.toNat ≤ 0x3FF := by simpa [Instr.wf, tmlEncodable] using h
    have hdigit := addr_toNat_div target
    rw [encode, decode_twoWord (isTwoWord_tml (by omega)), decodeWords_tml (by omega) (by omega), addr_split]
  all_goals rfl

/-- Settles O1: the words of the instruction spell it alone, and no word after them matters. -/
theorem decodingAnEncodedInstructionGivesItBack : Obligations.DecodingAnEncodedInstructionGivesItBack := by
  intro i rest hwf
  exact decode_append (decode_encode i hwf) rest

/-! ### Encoding what was decoded -/

/-- R81: the instruction read from two words is encoded by the first of them, and by both where its length is two. -/
theorem encode_decodeWords (w w2 : RomWord) :
    encode (decodeWords w w2) = if isTwoWord w then [w, w2] else [w] := by
  cases hw : isTwoWord w with
  | true =>
    obtain rfl | rfl | ⟨d, h1, h3, rfl⟩ | ⟨d, rfl⟩ := twoWord_cases hw
    · rw [decodeWords_lbl, encode, BitVec.not_not]; rfl
    · rw [decodeWords_iol]; rfl
    · rw [decodeWords_tml h1 h3, encode, addr_high, addr_low]; rfl
    · rw [decodeWords_tl, encode, addr_high, addr_low]; rfl
  | false =>
    rw [decodeWords_of_oneWord hw w2 0x00#8]
    exact (by decide : ∀ w, isTwoWord w = false → encode (decodeWords w 0x00#8) = [w]) w hw

/-- What a list of words must be for the decoder to answer: the words of the instruction, and the rest. -/
theorem decode_ok_cases {ws rest : List RomWord} {i : Instr} (h : decode ws = .ok (i, rest)) :
    ∃ w w2, i = decodeWords w w2 ∧ ws = (if isTwoWord w then [w, w2] else [w]) ++ rest := by
  match ws, h with
  | [], h => cases h
  | [w], h =>
    cases hw : isTwoWord w with
    | true => simp [decode, hw] at h
    | false =>
      rw [decode_oneWord hw] at h
      cases h
      exact ⟨w, 0x00#8, rfl, by rw [hw]; rfl⟩
  | w :: w2 :: ws, h =>
    rw [decode_cons_cons] at h
    cases h
    exact ⟨w, w2, rfl, by cases isTwoWord w <;> rfl⟩

/-- Settles O2: the decoder answers `decodeWords` of the first word and the word after it. -/
theorem encodingADecodedInstructionGivesItsWords : Obligations.EncodingADecodedInstructionGivesItsWords := by
  intro ws rest i h
  obtain ⟨w, w2, rfl, rfl⟩ := decode_ok_cases h
  exact ⟨wf_decodeWords w w2, by rw [encode_decodeWords]⟩

/-! ### The first word alone -/

theorem isTwoWord_iff (w : RomWord) :
    isTwoWord w = true ↔ w.toNat ≤ 0x03 ∨ w.toNat = 0x1C ∨ (0x50 ≤ w.toNat ∧ w.toNat ≤ 0x5F) := by
  revert w; decide

/-- Settles O4: the listed first words are the ones that take a second word. -/
theorem firstWordDecidesTheLength : Obligations.FirstWordDecidesTheLength := by
  intro w w2 rest
  refine ⟨_, _, decode_cons_cons w w2 rest, ?_⟩
  rw [words_decodeWords]
  split_ifs with hlist htwo htwo
  · exact ⟨rfl, rfl⟩
  · exact absurd ((isTwoWord_iff w).mpr hlist) htwo
  · exact absurd ((isTwoWord_iff w).mp htwo) hlist
  · exact ⟨rfl, rfl⟩

theorem wordClass_eq_ldi_iff (w : RomWord) : wordClass w = .ldi ↔ 0x70 ≤ w.toNat ∧ w.toNat ≤ 0x7F := by
  revert w; decide

theorem wordClass_eq_lb_iff (w : RomWord) :
    wordClass w = .lb ↔ (0xC0 ≤ w.toNat ∧ w.toNat ≤ 0xCF) ∨ w.toNat = 0x00 := by
  revert w; decide

/-- Settles O5: the class of what is decoded is the class of its first word, and the two classes are ranges of words. -/
theorem stringClassOfEveryFirstWord : Obligations.StringClassOfEveryFirstWord := by
  intro w w2
  exact ⟨stringClass_decodeWords w w2, wordClass_eq_ldi_iff w, wordClass_eq_lb_iff w⟩

/-- Settles O6: each of the fourteen is evaluated by the decoder. -/
theorem writtenOutWordsDecode : Obligations.WrittenOutWordsDecode :=
  ⟨rfl, rfl, rfl, rfl, rfl, rfl, rfl, rfl, rfl, rfl, rfl, rfl, rfl, rfl⟩

/-! ### The encodings of the instructions' rules -/

theorem length_encode (i : Instr) : (encode i).length = i.words := by cases i <;> rfl

/-- The encoding part of an instruction's rule (R13) holds of its encoding. -/
theorem codedAs_encode {i : Instr} (h : i.wf = true) : CodedAs i (encode i) (cycles i) :=
  ⟨rfl, decode_encode i h, (length_encode i).symm, rfl⟩

end Sys2Proof
end

section
/-! SUPPORT. What each instruction answers, one equation per instruction not yet given above (spec files 40 to 45). LB is
stated without its excursion, which brings P and SA back (R100). -/

namespace Sys2Proof.Machine

variable (s : State)

theorem exec_lb (i : Nibble) : exec (.lb i) s =
    .next (loadB8 (~~~(romWord s (lbTableAddr i))) { afterRomRead (lbTableAddr i) s with sb := s.p }) := rfl

theorem exec_lbl (v : RomWord) : exec (.lbl v) s = .next (loadB8 v s) := rfl

theorem exec_sag : exec .sag s = .next { s with sagf := true } := rfl

theorem exec_incb : exec .incb s =
    .next (skipIf (incNibble s.bl == 0#4) { s with bl := incNibble s.bl }) := rfl

theorem exec_decb : exec .decb s =
    .next (skipIf (decNibble s.bl == 15#4) { s with bl := decNibble s.bl }) := rfl

theorem exec_lbua : exec .lbua s =
    .next { afterRamRead (ramAddr s) s with bu := s.a, a := ramOperand s } := rfl

theorem exec_cys : exec .cys s = .next { s with a := lowDigit s.sa, sa := shiftInDigit s.a s.sa } := rfl

theorem exec_ld (n : BitVec 3) : exec (.ld n) s = .next (loadAndStepB n s) := rfl

theorem exec_ex (n : BitVec 3) : exec (.ex n) s = .next (exchangeAndStepB n s) := rfl

theorem exec_exd (n : BitVec 3) : exec (.exd n) s =
    .next (skipIf (decNibble s.bl == 15#4) { exchangeAndStepB n s with bl := decNibble s.bl }) := rfl

theorem exec_ldi (n : Nibble) : exec (.ldi n) s = .next { s with a := n } := rfl

theorem exec_rtn : exec .rtn s = .next (popReturn s) := rfl

theorem exec_rtnsk : exec .rtnsk s = .next (skipIf true (popReturn s)) := rfl

theorem exec_t (field : BitVec 6) : exec (.t field) s = .next { s with p := inPage s.p field } := rfl

theorem exec_tml (target : Addr) : exec (.tml target) s = .next { pushReturn s with p := target } := rfl

theorem exec_tm (k : BitVec 6) : exec (.tm k) s =
    .next { afterRomRead (tmPointerAddr k) (pushReturn s) with p := tmEntry (romWord s (tmPointerAddr k)) } := rfl

theorem exec_ad : exec .ad s = .next (addMemory false s) := rfl

theorem exec_adc : exec .adc s = .next (addMemory s.c s) := rfl

theorem exec_adcsk : exec .adcsk s =
    .next (skipIf (carryOut (exactSum s.a (ramOperand s) s.c)) (addMemory s.c s)) := rfl

theorem exec_adsk : exec .adsk s =
    .next (skipIf (carryOut (exactSum s.a (ramOperand s) false)) (addMemory false s)) := rfl

theorem exec_and : exec .and s = .next (combineMemory (fun a m => a &&& m) s) := rfl

theorem exec_or : exec .or s = .next (combineMemory (fun a m => a ||| m) s) := rfl

theorem exec_eor : exec .eor s = .next (combineMemory (fun a m => a ^^^ m) s) := rfl

theorem exec_comp : exec .comp s = .next { s with a := ~~~s.a } := rfl

theorem exec_adi (n : Nibble) : exec (.adi n) s =
    .next (skipIf (carryOut (exactSum s.a n false)) { s with a := sumNibble (exactSum s.a n false) }) := rfl

theorem exec_dc : exec .dc s = .next { s with a := sumNibble (exactSum s.a 10#4 false) } := rfl

theorem exec_dia : exec .dia s = .next { afterDiscreteIn .a s with a := discreteIn .a s } := rfl

theorem exec_dib : exec .dib s = .next { afterDiscreteIn .b s with a := discreteIn .b s } := rfl

theorem exec_doa : exec .doa s = .next (discreteOut s.a s) := rfl

theorem exec_iol (cmd : RomWord) : exec (.iol cmd) s =
    .next { afterIoTransact cmd (~~~s.a) s with a := ~~~(busReply cmd (~~~s.a) s) } := rfl

theorem exec_skz : exec .skz s = .next (skipIf (s.a == 0#4) s) := rfl

theorem exec_skf2 : exec .skf2 s = .next (skipIf s.ff2 s) := rfl

theorem exec_skf1 : exec .skf1 s = .next (skipIf s.ff1 s) := rfl

theorem exec_skc : exec .skc s = .next (skipIf s.c s) := rfl

theorem exec_skbi (n : Nibble) : exec (.skbi n) s = .next (skipIf (s.bl == n) s) := rfl

end Sys2Proof.Machine
end

section
/-! SUPPORT. The frame of every instruction (spec/10_state.md R39): the frames of the remaining register writes and of
the shared operations, and from them that `exec` changes only what `writable` lists. -/

namespace Sys2Proof.Machine

/-- A frame may be given more room. -/
theorem SameExcept.mono {l l' : List Field} {s t : State} (h : SameExcept l s t) (hsub : ∀ f ∈ l, f ∈ l') :
    SameExcept l' s t :=
  h.narrow fun f hl hl' => absurd (hsub f hl) hl'

variable (s : State)

/-- The elements that have no frame of their own above, changed together; each single frame below narrows this one. -/
theorem sameExcept_set_others (bu doa : Nibble) (ram : Memory 4) (skip sagf : Bool) (last : StringClass) (sagNow : Bool)
    (world : World) (draws : Nat) (written : Written) :
    SameExcept [.bu, .doa, .ram, .skip, .sagf, .last, .sagNow, .world, .draws, .written] s
      { s with bu := bu, doa := doa, ram := ram, skip := skip, sagf := sagf, last := last, sagNow := sagNow,
               world := world, draws := draws, written := written } := by
  intro f hf
  cases f
  case bu | doa | ram | skip | sagf | last | sagNow | world | draws | written => simp at hf
  all_goals rfl

theorem sameExcept_set_bu (v : Nibble) : SameExcept [.bu] s { s with bu := v } :=
  (sameExcept_set_others s v s.doa s.ram s.skip s.sagf s.last s.sagNow s.world s.draws s.written).narrow
    (by simp [Field.same, ramContent, ramPopulated])

theorem sameExcept_set_skip (v : Bool) : SameExcept [.skip] s { s with skip := v } :=
  (sameExcept_set_others s s.bu s.doa s.ram v s.sagf s.last s.sagNow s.world s.draws s.written).narrow
    (by simp [Field.same, ramContent, ramPopulated])

theorem sameExcept_set_sagf (v : Bool) : SameExcept [.sagf] s { s with sagf := v } :=
  (sameExcept_set_others s s.bu s.doa s.ram s.skip v s.last s.sagNow s.world s.draws s.written).narrow
    (by simp [Field.same, ramContent, ramPopulated])

theorem sameExcept_set_draws (n : Nat) : SameExcept [.draws] s { s with draws := n } :=
  (sameExcept_set_others s s.bu s.doa s.ram s.skip s.sagf s.last s.sagNow s.world n s.written).narrow
    (by simp [Field.same, ramContent, ramPopulated])

theorem sameExcept_ramWrite (adr : Addr) (v : Nibble) : SameExcept [.ram] s (ramWrite adr v s) :=
  (sameExcept_set_others s s.bu s.doa (ramWrite adr v s).ram s.skip s.sagf s.last s.sagNow s.world s.draws
    s.written).narrow (by simp [Field.same])

theorem sameExcept_set_world_draws (w : World) (n : Nat) :
    SameExcept [.world, .draws] s { s with world := w, draws := n } :=
  (sameExcept_set_others s s.bu s.doa s.ram s.skip s.sagf s.last s.sagNow w n s.written).narrow
    (by simp [Field.same, ramContent, ramPopulated])

theorem sameExcept_discreteOut (v : Nibble) : SameExcept [.doa, .world] s (discreteOut v s) :=
  (sameExcept_set_others s s.bu v s.ram s.skip s.sagf s.last s.sagNow (s.world.record (.discreteOut v)) s.draws
    s.written).narrow (by simp [Field.same, ramContent, ramPopulated])

theorem sameExcept_endExecuted (k : StringClass) (i : Instr) :
    SameExcept [.last, .sagNow, .written] s (endStep k (recordExecuted i s)) :=
  (sameExcept_set_others s s.bu s.doa s.ram s.skip s.sagf k false s.world s.draws (recordWrites i s.written)).narrow
    (by simp [Field.same, ramContent, ramPopulated])

/-! ### The shared operations -/

theorem sameExcept_afterRamRead (adr : Addr) : SameExcept [.draws] s (afterRamRead adr s) :=
  sameExcept_set_draws s _

theorem sameExcept_afterRomRead (adr : Addr) : SameExcept [.draws] s (afterRomRead adr s) :=
  sameExcept_set_draws s _

theorem sameExcept_skipIf (cond : Bool) : SameExcept [.skip] s (skipIf cond s) :=
  sameExcept_set_skip s _

theorem sameExcept_pushReturn : SameExcept [.sb, .sa] s (pushReturn s) :=
  (sameExcept_set_sb s s.sa).trans (sameExcept_set_sa _ s.p)

theorem sameExcept_popReturn : SameExcept [.p, .sa, .sb] s (popReturn s) :=
  ((sameExcept_set_p s s.sa).trans (sameExcept_set_sa _ s.sb)).trans (sameExcept_set_sb _ s.sa)

theorem sameExcept_loadB8 (v : RomWord) : SameExcept [.bu, .bm, .bl] s (loadB8 v s) :=
  ((sameExcept_set_bu s 0#4).trans (sameExcept_set_bm _ (v.extractLsb' 4 4))).trans
    (sameExcept_set_bl _ (v.extractLsb' 0 4))

theorem sameExcept_loadAndStepB (n : BitVec 3) : SameExcept [.draws, .a, .bm] s (loadAndStepB n s) :=
  ((sameExcept_afterRamRead s (ramAddr s)).trans (sameExcept_set_a _ (ramOperand s))).trans
    (sameExcept_set_bm _ (bmXor s.bm n))

theorem sameExcept_exchangeAndStepB (n : BitVec 3) :
    SameExcept [.draws, .a, .bm, .ram] s (exchangeAndStepB n s) :=
  (sameExcept_loadAndStepB s n).trans (sameExcept_ramWrite _ (ramAddr s) s.a)

theorem sameExcept_addMemory (cin : Bool) : SameExcept [.draws, .a, .c] s (addMemory cin s) :=
  ((sameExcept_afterRamRead s (ramAddr s)).trans (sameExcept_set_a _ _)).trans (sameExcept_set_c _ _)

theorem sameExcept_combineMemory (f : Nibble → Nibble → Nibble) :
    SameExcept [.draws, .a] s (combineMemory f s) :=
  (sameExcept_afterRamRead s (ramAddr s)).trans (sameExcept_set_a _ _)

theorem sameExcept_afterDiscreteIn (g : DiscreteGroup) :
    SameExcept [.world, .draws] s (afterDiscreteIn g s) :=
  sameExcept_set_world_draws s _ _

theorem sameExcept_afterIoTransact (cmd : RomWord) (out : Nibble) :
    SameExcept [.world, .draws] s (afterIoTransact cmd out s) :=
  sameExcept_set_world_draws s _ _

/-! ### Every instruction -/

/-- R39: the frame of an instruction is put together from the frames of the updates it is made of. -/
theorem exec_sameExcept (i : Instr) (s : State) : ∃ t, exec i s = .next t ∧ SameExcept (writable i) s t := by
  cases i
  case lb i =>
    exact ⟨_, exec_lb s i, (((sameExcept_afterRomRead s (lbTableAddr i)).trans (sameExcept_set_sb _ s.p)).trans
      (sameExcept_loadB8 _ _)).mono (by simp [writable])⟩
  case lbl v => exact ⟨_, exec_lbl s v, sameExcept_loadB8 s v⟩
  case sag => exact ⟨_, exec_sag s, sameExcept_set_sagf s true⟩
  case labl => exact ⟨_, exec_labl s, sameExcept_set_a s s.bl⟩
  case incb => exact ⟨_, exec_incb s, (sameExcept_set_bl s _).trans (sameExcept_skipIf _ _)⟩
  case decb => exact ⟨_, exec_decb s, (sameExcept_set_bl s _).trans (sameExcept_skipIf _ _)⟩
  case xabl => exact ⟨_, exec_xabl s, (sameExcept_set_a s s.bl).trans (sameExcept_set_bl _ s.a)⟩
  case lbua =>
    exact ⟨_, exec_lbua s, (((sameExcept_afterRamRead s (ramAddr s)).trans (sameExcept_set_bu _ s.a)).trans
      (sameExcept_set_a _ (ramOperand s))).mono (by simp [writable])⟩
  case lbmx => exact ⟨_, exec_lbmx s, sameExcept_set_bm s s.x⟩
  case xbmx => exact ⟨_, exec_xbmx s, (sameExcept_set_x s s.bm).trans (sameExcept_set_bm _ s.x)⟩
  case cys => exact ⟨_, exec_cys s, (sameExcept_set_a s _).trans (sameExcept_set_sa _ _)⟩
  case ld n => exact ⟨_, exec_ld s n, (sameExcept_loadAndStepB s n).mono (by simp [writable])⟩
  case ex n => exact ⟨_, exec_ex s n, (sameExcept_exchangeAndStepB s n).mono (by simp [writable])⟩
  case exd n =>
    exact ⟨_, exec_exd s n, (((sameExcept_exchangeAndStepB s n).trans (sameExcept_set_bl _ (decNibble s.bl))).trans
      (sameExcept_skipIf _ _)).mono (by simp [writable])⟩
  case xs => exact ⟨_, exec_xs s, (sameExcept_set_sa s s.sb).trans (sameExcept_set_sb _ s.sa)⟩
  case xax => exact ⟨_, exec_xax s, (sameExcept_set_a s s.x).trans (sameExcept_set_x _ s.a)⟩
  case lax => exact ⟨_, exec_lax s, sameExcept_set_a s s.x⟩
  case lxa => exact ⟨_, exec_lxa s, sameExcept_set_x s s.a⟩
  case ldi n => exact ⟨_, exec_ldi s n, sameExcept_set_a s n⟩
  case rtn => exact ⟨_, exec_rtn s, sameExcept_popReturn s⟩
  case rtnsk => exact ⟨_, exec_rtnsk s, (sameExcept_popReturn s).trans (sameExcept_skipIf _ true)⟩
  case t field => exact ⟨_, exec_t s field, sameExcept_set_p s _⟩
  case tl target => exact ⟨_, exec_tl target s, sameExcept_set_p s target⟩
  case tml target =>
    exact ⟨_, exec_tml s target,
      ((sameExcept_pushReturn s).trans (sameExcept_set_p _ target)).mono (by simp [writable])⟩
  case tm k =>
    exact ⟨_, exec_tm s k, (((sameExcept_pushReturn s).trans (sameExcept_afterRomRead _ (tmPointerAddr k))).trans
      (sameExcept_set_p _ _)).mono (by simp [writable])⟩
  case ad => exact ⟨_, exec_ad s, (sameExcept_addMemory s false).mono (by simp [writable])⟩
  case adc => exact ⟨_, exec_adc s, (sameExcept_addMemory s s.c).mono (by simp [writable])⟩
  case adcsk =>
    exact ⟨_, exec_adcsk s, ((sameExcept_addMemory s s.c).trans (sameExcept_skipIf _ _)).mono (by simp [writable])⟩
  case adsk =>
    exact ⟨_, exec_adsk s, ((sameExcept_addMemory s false).trans (sameExcept_skipIf _ _)).mono (by simp [writable])⟩
  case and => exact ⟨_, exec_and s, (sameExcept_combineMemory s _).mono (by simp [writable])⟩
  case or => exact ⟨_, exec_or s, (sameExcept_combineMemory s _).mono (by simp [writable])⟩
  case eor => exact ⟨_, exec_eor s, (sameExcept_combineMemory s _).mono (by simp [writable])⟩
  case comp => exact ⟨_, exec_comp s, sameExcept_set_a s _⟩
  case adi n => exact ⟨_, exec_adi s n, (sameExcept_set_a s _).trans (sameExcept_skipIf _ _)⟩
  case dc => exact ⟨_, exec_dc s, sameExcept_set_a s _⟩
  case dia =>
    exact ⟨_, exec_dia s,
      ((sameExcept_afterDiscreteIn s .a).trans (sameExcept_set_a _ _)).mono (by simp [writable])⟩
  case dib =>
    exact ⟨_, exec_dib s,
      ((sameExcept_afterDiscreteIn s .b).trans (sameExcept_set_a _ _)).mono (by simp [writable])⟩
  case doa => exact ⟨_, exec_doa s, sameExcept_discreteOut s s.a⟩
  case iol cmd =>
    exact ⟨_, exec_iol s cmd,
      ((sameExcept_afterIoTransact s cmd _).trans (sameExcept_set_a _ _)).mono (by simp [writable])⟩
  case skz => exact ⟨_, exec_skz s, sameExcept_skipIf s _⟩
  case skf2 => exact ⟨_, exec_skf2 s, sameExcept_skipIf s _⟩
  case skf1 => exact ⟨_, exec_skf1 s, sameExcept_skipIf s _⟩
  case skc => exact ⟨_, exec_skc s, sameExcept_skipIf s _⟩
  case skbi n => exact ⟨_, exec_skbi s n, sameExcept_skipIf s _⟩
  case rf1 => exact ⟨_, exec_rf1 s, sameExcept_set_ff1 s false⟩
  case sf1 => exact ⟨_, exec_sf1 s, sameExcept_set_ff1 s true⟩
  case sf2 => exact ⟨_, exec_sf2 s, sameExcept_set_ff2 s true⟩
  case sc => exact ⟨_, exec_sc s, sameExcept_set_c s true⟩
  case rc => exact ⟨_, exec_rc s, sameExcept_set_c s false⟩
  case rf2 => exact ⟨_, exec_rf2 s, sameExcept_set_ff2 s false⟩

/-- The frame of whatever state an instruction answers. -/
theorem exec_frame {i : Instr} {s t : State} (h : exec i s = .next t) : SameExcept (writable i) s t := by
  obtain ⟨u, hu, hframe⟩ := exec_sameExcept i s
  cases h.symm.trans hu
  exact hframe

end Sys2Proof.Machine

namespace Sys2Proof
open Sys2Proof.Machine

/-- Settles O25: the frame of every instruction, and its next state. -/
theorem instructionsWriteOnlyWhatTheTableLists : Obligations.InstructionsWriteOnlyWhatTheTableLists :=
  exec_sameExcept

end Sys2Proof
end

section
/-! SUPPORT. The three outcomes of a step (spec/10_state.md R36) as explicit states, and what each of them leaves
unchanged. Proofs about every state go by cases on `StepCase`. -/

namespace Sys2Proof.Machine

/-- The draws made to fetch the first word of a step. -/
def State.firstDraws (s : State) : Nat := if (Memory.read s.rom s.p.toNat).isSome then 0 else 1

/-- The draws made to fetch all words of the instruction at P. -/
def State.fetchDraws (s : State) : Nat :=
  s.firstDraws +
    if isTwoWord (romWord s s.p) = true ∧ (Memory.read s.rom (s.p + 1#12).toNat).isNone = true then 1 else 0

/-- R36: what the step at `s` can answer. A word is skipped, or an instruction is ignored by the string rule, or the
instruction at P is executed. -/
inductive StepCase (s : State) : State → Prop where
  | skipped (hskip : s.skip = true) :
    StepCase s { s.fetched 1 s.firstDraws with
      skip := false, sagNow := false
      last := if s.platform.skippedWordCountsInString then wordClass (romWord s s.p) else .none }
  | ignored (hskip : s.skip = false) (hlast : s.last = wordClass (romWord s s.p)) (hstring : s.last ≠ .none) :
    StepCase s { s.fetched (if romWord s s.p = 0x00#8 then 2 else 1) s.firstDraws with sagNow := false }
  | executed (hskip : s.skip = false) {t : State}
    (hexec : exec s.current (s.fetched s.current.words s.fetchDraws) = .next t) :
    StepCase s (endStep s.current.stringClass (recordExecuted s.current t))

theorem ignoreBySkip_beginStep (s : State) (w : RomWord) : ignoreBySkip w (beginStep s) =
    { s.fetched 1 s.firstDraws with
      skip := false, sagNow := false
      last := if s.platform.skippedWordCountsInString then wordClass w else .none } := rfl

theorem ignoreByString_beginStep {s : State} {w : RomWord} (hlast : s.last = wordClass w) :
    ignoreByString w (beginStep s) =
      { s.fetched (if w = 0x00#8 then 2 else 1) s.firstDraws with sagNow := false } := by
  unfold ignoreByString
  split_ifs
  all_goals
    simp [endStep, advanceP, beginStep, afterFetch, afterRomRead, State.fetched, State.firstDraws, hlast,
      BitVec.add_assoc]

theorem words_current (s : State) : s.current.words = if isTwoWord (romWord s s.p) then 2 else 1 :=
  words_decodeWords _ _

theorem stringClass_current (s : State) : s.current.stringClass = wordClass (romWord s s.p) :=
  stringClass_decodeWords _ _

/-- The instruction finds P past its words (R13, R37). -/
theorem fetchSecond_eq_fetched (s : State) :
    fetchSecond (romWord s s.p) (beginStep s) = s.fetched s.current.words s.fetchDraws := by
  rw [fetchSecond_beginStep, words_current]
  cases h : isTwoWord (romWord s s.p) <;> simp [State.fetched, State.fetchDraws, State.firstDraws, h, Nat.add_assoc]

/-- The step answers one of the three outcomes. -/
theorem step_stepCase (s : State) : ∃ t, step s = .next t ∧ StepCase s t := by
  obtain ⟨hskip, hstep⟩ | ⟨hskip, hignore, hstep⟩ | ⟨hskip, -, t, hexec, hstep⟩ := step_cases s
  · rw [ignoreBySkip_beginStep] at hstep
    exact ⟨_, hstep, .skipped hskip⟩
  · obtain ⟨hclass, hlast⟩ := stringIgnores_iff.mp hignore
    rw [ignoreByString_beginStep hlast] at hstep
    exact ⟨_, hstep, .ignored hskip hlast (hlast ▸ hclass)⟩
  · rw [fetchSecond_eq_fetched] at hexec
    rw [← stringClass_current] at hstep
    exact ⟨_, hstep, .executed hskip hexec⟩

/-- Whatever the step answers is one of the three outcomes. -/
theorem stepCase_of_step {s t : State} (h : step s = .next t) : StepCase s t := by
  obtain ⟨u, hu, hcase⟩ := step_stepCase s
  cases h.symm.trans hu
  exact hcase

/-- With SKIP = 0, and the string rule not ignoring it, the step executes the instruction at P. -/
theorem step_executes {s : State} (h : Executes s.current.stringClass s) :
    ∃ t, exec s.current (s.fetched s.current.words s.fetchDraws) = .next t ∧
      step s = .next (endStep s.current.stringClass (recordExecuted s.current t)) := by
  obtain ⟨hskip, hclass⟩ := h
  obtain ⟨u, hu, hcase⟩ := step_stepCase s
  cases hcase with
  | skipped hskip' => rw [hskip] at hskip'; cases hskip'
  | ignored _ hlast hstring =>
    rw [stringClass_current, ← hlast] at hclass
    exact absurd rfl (hclass.resolve_left hstring)
  | executed _ hexec => exact ⟨_, hexec, hu⟩

/-! ### Frames of the outcomes -/

/-- What the frame of the step itself may touch. -/
theorem sameExcept_stepFields (s : State) (p : Addr) (skip sagf : Bool) (last : StringClass) (sagNow : Bool)
    (draws : Nat) : SameExcept [.p, .skip, .sagf, .last, .sagNow, .draws] s
      { s with p := p, skip := skip, sagf := sagf, last := last, sagNow := sagNow, draws := draws } :=
  ((sameExcept_set_p s p).trans (sameExcept_set_others { s with p := p } s.bu s.doa s.ram skip sagf last sagNow s.world
    draws s.written)).narrow (by simp [Field.same, ramContent, ramPopulated])

theorem sameExcept_fetched (s : State) (n d : Nat) :
    SameExcept [.p, .sagf, .sagNow, .draws] s (s.fetched n d) :=
  (sameExcept_stepFields s (s.p + BitVec.ofNat 12 n) s.skip false s.last s.sagf (s.draws + d)).narrow
    (by simp [Field.same])

/-- An executed step changes what its instruction may write, and what the step itself writes. -/
theorem sameExcept_executed {s t : State} {i : Instr} {n d : Nat} (h : exec i (s.fetched n d) = .next t)
    (k : StringClass) :
    SameExcept ([.p, .sagf, .sagNow, .draws] ++ writable i ++ [.last, .sagNow, .written]) s
      (endStep k (recordExecuted i t)) :=
  ((sameExcept_fetched s n d).trans (exec_frame h)).trans (sameExcept_endExecuted t k i)

/-- An element that is not the step's own is changed only by executing an instruction that may write it. -/
theorem StepCase.same_or_written {s t : State} (h : StepCase s t) {f : Field}
    (hf : f ∉ [Field.p, .skip, .sagf, .last, .sagNow, .draws, .written]) :
    f.same s t ∨ s.skip = false ∧ f ∈ writable s.current := by
  simp only [List.mem_cons, List.not_mem_nil, or_false, not_or] at hf
  cases h with
  | skipped => exact .inl (sameExcept_stepFields s _ _ _ _ _ _ f (by simp [hf]))
  | ignored => exact .inl (sameExcept_stepFields s _ s.skip _ s.last _ _ f (by simp [hf]))
  | executed hskip hexec =>
    by_cases hw : f ∈ writable s.current
    · exact .inr ⟨hskip, hw⟩
    · exact .inl (sameExcept_executed hexec _ f (by simp [hf, hw]))

/-! ### Executing listed words -/

theorem addr_add_toNat (p : Addr) (n : Nat) : (p + BitVec.ofNat 12 n).toNat = (p.toNat + n) % 4096 := by
  simp [BitVec.toNat_add]

/-- The instruction at P is what the decoder reads from the words there. -/
theorem current_of_decode {s : State} {i : Instr} {rest : List RomWord}
    (h : decode [romWord s s.p, romWord (beginStep s) (s.p + 1#12)] = .ok (i, rest)) : s.current = i :=
  (decode_eq_ok h).symm

/-- No value is drawn where the program lists the words used. -/
theorem fetchDraws_of_listed {s : State} (h : (Memory.read s.rom s.p.toNat).isSome = true)
    (h2 : s.current.words = 1 ∨ (Memory.read s.rom (s.p + 1#12).toNat).isSome = true) : s.fetchDraws = 0 := by
  have hsecond : ¬ (isTwoWord (romWord s s.p) = true ∧ (Memory.read s.rom (s.p + 1#12).toNat).isNone = true) := by
    rintro ⟨htwo, hnone⟩
    obtain hone | hsome := h2
    · rw [words_current, htwo] at hone; cases hone
    · rw [Option.isNone_iff_eq_none.mp hnone] at hsome; cases hsome
  simp only [State.fetchDraws, State.firstDraws, h, if_neg hsecond, if_true]

/-- The step executes the instruction whose two words the program lists at P. -/
theorem step_of_listed {s : State} {w w2 : RomWord} {i : Instr} {rest : List RomWord} (hw : HoldsRom s s.p w)
    (hw2 : HoldsRom s (s.p + 1#12) w2) (hdec : decode [w, w2] = .ok (i, rest)) (hx : Executes i.stringClass s) :
    ∃ t, exec i (s.fetched i.words 0) = .next t ∧ step s = .next (endStep i.stringClass (recordExecuted i t)) := by
  have hsecond : romWord (beginStep s) (s.p + 1#12) = w2 := romWord_of_listed hw2
  obtain rfl : s.current = i := current_of_decode (by rw [romWord_of_listed hw, hsecond]; exact hdec)
  have hdraws : s.fetchDraws = 0 :=
    fetchDraws_of_listed (Option.isSome_of_eq_some hw) (.inr (Option.isSome_of_eq_some hw2))
  obtain ⟨t, hexec, hstep⟩ := step_executes hx
  exact ⟨t, hdraws ▸ hexec, hstep⟩

/-- The step executes the instruction of one word that the program lists at P. -/
theorem step_of_listed_oneWord {s : State} {w : RomWord} {i : Instr} (hw : HoldsRom s s.p w)
    (hdec : decode [w] = .ok (i, [])) (hx : Executes i.stringClass s) :
    ∃ t, exec i (s.fetched 1 0) = .next t ∧ step s = .next (endStep i.stringClass (recordExecuted i t)) := by
  have hread := decode_append hdec [romWord (beginStep s) (s.p + 1#12)]
  obtain rfl : s.current = i := current_of_decode (by rw [romWord_of_listed hw]; exact hread)
  have hwords : s.current.words = 1 := by
    rw [words_current, romWord_of_listed hw]
    cases htwo : isTwoWord w with
    | true => simp [decode, htwo] at hdec
    | false => rfl
  have hdraws : s.fetchDraws = 0 := fetchDraws_of_listed (Option.isSome_of_eq_some hw) (.inl hwords)
  obtain ⟨t, hexec, hstep⟩ := step_executes hx
  exact ⟨t, hdraws ▸ hwords ▸ hexec, hstep⟩

end Sys2Proof.Machine
end

section
/-! SUPPORT. The invariant (spec/10_state.md R38): which instructions write the hidden flags, what becomes of RAM, and
that every step, hence every run, keeps `Inv`. -/

namespace Sys2Proof.Machine

/-! ### Who writes what -/

theorem rom_notMem_writable (i : Instr) : Field.rom ∉ writable i := by cases i <;> simp [writable]

theorem platform_notMem_writable (i : Instr) : Field.platform ∉ writable i := by cases i <;> simp [writable]

theorem written_notMem_writable (i : Instr) : Field.written ∉ writable i := by cases i <;> simp [writable]

theorem sagf_mem_writable {i : Instr} : Field.sagf ∈ writable i ↔ i = .sag := by cases i <;> simp [writable]

/-- R35, R190f: no instruction that can set SKIP belongs to a string. -/
theorem stringClass_of_skip_mem {i : Instr} (h : Field.skip ∈ writable i) : i.stringClass = .none := by
  cases i
  case lb | lbl | ldi => simp [writable] at h
  all_goals rfl

/-- RAM is left alone, or stored to as EX and EXD do. -/
theorem exec_ram_cases {i : Instr} {s t : State} (h : exec i s = .next t) :
    t.ram = s.ram ∨ t.ram = (ramWrite (ramAddr s) s.a s).ram := by
  cases i
  case ex | exd => cases h; exact .inr rfl
  all_goals cases h; exact .inl rfl

/-! ### RAM in canonical form, and nothing listed at an unpopulated address -/

theorem ramWrite_keeps_wf {s : State} (h : Memory.wf s.ram = true) (adr : Addr) (v : Nibble) :
    Memory.wf (ramWrite adr v s).ram = true := by
  rw [ramWrite_ram]
  split_ifs
  · exact Memory.wf_write h adr v
  · exact h

theorem ramWrite_keeps_unpopulated {s : State} {k : Addr} (h : Memory.read s.ram k.toNat = none)
    (hk : ramPopulated s k = false) (adr : Addr) (v : Nibble) :
    Memory.read (ramWrite adr v s).ram k.toNat = none := by
  rw [ramWrite_ram]
  split_ifs with hadr
  · have hne : k.toNat ≠ adr.toNat := by
      intro he
      rw [BitVec.eq_of_toNat_eq he, hadr] at hk
      cases hk
    rw [Memory.read_write_other _ hne, h]
  · exact h

theorem exec_keeps_ram_wf {i : Instr} {s t : State} (h : exec i s = .next t) (hwf : Memory.wf s.ram = true) :
    Memory.wf t.ram = true := by
  obtain he | he := exec_ram_cases h <;> rw [he]
  · exact hwf
  · exact ramWrite_keeps_wf hwf _ _

theorem exec_keeps_unpopulated {i : Instr} {s t : State} (h : exec i s = .next t) {k : Addr}
    (hread : Memory.read s.ram k.toNat = none) (hk : ramPopulated s k = false) :
    Memory.read t.ram k.toNat = none := by
  obtain he | he := exec_ram_cases h <;> rw [he]
  · exact hread
  · exact ramWrite_keeps_unpopulated hread hk _ _

/-! ### The step -/

/-- After an executed step SKIP = 1 only if the instruction may write it. -/
theorem skip_mem_of_executed {i : Instr} {s t : State} {n d : Nat} (h : exec i (s.fetched n d) = .next t)
    (hskip : s.skip = false) (ht : t.skip = true) : Field.skip ∈ writable i := by
  by_contra hnot
  have hsame : t.skip = s.skip := exec_frame h .skip hnot
  rw [hsame, hskip] at ht
  cases ht

/-- After an executed step SAGF = 1 only if the instruction was SAG. -/
theorem eq_sag_of_executed {i : Instr} {s t : State} {n d : Nat} (h : exec i (s.fetched n d) = .next t)
    (ht : t.sagf = true) : i = .sag := by
  by_contra hnot
  have hsame : t.sagf = false := exec_frame h .sagf (mt sagf_mem_writable.mp hnot)
  rw [hsame] at ht
  cases ht

/-- Every outcome of a step meets the invariant. -/
theorem StepCase.keeps_inv {s t : State} (h : StepCase s t) (hs : Inv s) : Inv t := by
  cases h with
  | skipped =>
    exact ⟨hs.ramCanonical, hs.romCanonical, hs.ramInPopulated, rfl, fun ⟨h, _⟩ => (nomatch h), nofun, nofun⟩
  | ignored hskip =>
    exact ⟨hs.ramCanonical, hs.romCanonical, hs.ramInPopulated, rfl, fun ⟨_, h⟩ => (nomatch h), hs.skipLast, nofun⟩
  | @executed hskip t hexec =>
    have hrom : t.rom = s.rom := exec_frame hexec .rom (rom_notMem_writable _)
    have hwf : Memory.wf t.ram = true := exec_keeps_ram_wf hexec hs.ramCanonical
    have hplatform : t.platform = s.platform := exec_frame hexec .platform (platform_notMem_writable _)
    have hskipWriter (ht : t.skip = true) := skip_mem_of_executed hexec hskip ht
    have hsag (ht : t.sagf = true) := eq_sag_of_executed hexec ht
    exact {
      ramCanonical := hwf
      romCanonical := by simpa [hrom] using hs.romCanonical
      ramInPopulated := fun adr hadr => by
        have hunpopulated : ramPopulated s adr = false := (ramPopulated_congr hplatform adr).symm.trans hadr
        exact exec_keeps_unpopulated (t := t) hexec (hs.ramInPopulated adr hunpopulated) hunpopulated
      noSagNow := rfl
      notBoth := fun ⟨hts, htg⟩ => by
        have hwriter := hskipWriter hts
        rw [hsag htg] at hwriter
        simp [writable] at hwriter
      skipLast := fun hts => stringClass_of_skip_mem (hskipWriter hts)
      sagLast := fun htg => by rw [endStep_last, hsag htg]; rfl }

theorem step_keeps_inv {s : State} (h : Inv s) : ∃ t, step s = .next t ∧ Inv t := by
  obtain ⟨t, hstep, hcase⟩ := step_stepCase s
  exact ⟨t, hstep, hcase.keeps_inv h⟩

end Sys2Proof.Machine

namespace Sys2Proof
open Sys2Proof.Machine

/-- Settles O13: by the three outcomes of a step. -/
theorem everyStepKeepsTheInvariant : Obligations.EveryStepKeepsTheInvariant :=
  fun _ => step_keeps_inv

/-- Settles O14: by induction on the number of steps. -/
theorem everyRunGoesOnAndKeepsTheInvariant : Obligations.EveryRunGoesOnAndKeepsTheInvariant := by
  intro k
  induction k with
  | zero => exact fun s hs => ⟨s, rfl, hs⟩
  | succ k ih =>
    intro s hs
    obtain ⟨u, hstep, hu⟩ := step_keeps_inv hs
    obtain ⟨t, hrun, ht⟩ := ih u hu
    exact ⟨t, (run_succ_of_next hstep).trans hrun, ht⟩

/-- Settles O15: the reset state lists no RAM word, and its flags are 0. -/
theorem resetMeetsTheInvariant : Obligations.ResetMeetsTheInvariant := by
  intro pf rom w hrom
  exact ⟨⟨rfl, hrom, fun _ _ => rfl, rfl, fun ⟨h, _⟩ => (nomatch h), nofun, nofun⟩,
    ⟨rfl, rfl, rfl, rfl, rfl, rfl⟩, rfl⟩

end Sys2Proof
end

section
/-! SUPPORT. The instruction step (spec/10_state.md R36, R37, spec/70_reset_and_hazards.md R230, R236): what is skipped,
what the string rule ignores, and what is executed. -/

namespace Sys2Proof
open Sys2Proof.Machine

/-- Settles O7: with no draw where the program lists the words. -/
theorem stepRunsTheDecodedInstruction : Obligations.StepRunsTheDecodedInstruction := by
  intro s i rest hdec hx
  obtain rfl := current_of_decode hdec
  obtain ⟨t, hexec, hstep⟩ := step_executes hx
  refine ⟨s.fetchDraws, fetchDraws_of_listed, ?_⟩
  rw [hstep, hexec]
  rfl

/-- Settles O9: only the first outcome of a step has SKIP = 1 before it. -/
theorem skipIgnoresExactlyOneWord : Obligations.SkipIgnoresExactlyOneWord := by
  intro s hskip
  obtain ⟨t, hstep, hcase⟩ := step_stepCase s
  refine ⟨t, hstep, ?_⟩
  cases hcase with
  | skipped => exact ⟨addr_add_toNat s.p 1, rfl, rfl, rfl, rfl, (sameExcept_stepFields s _ _ _ _ _ _).mono (by simp)⟩
  | ignored hskip' | executed hskip' => rw [hskip] at hskip'; cases hskip'

/-- Settles O11: only the second outcome of a step has LAST equal to the class of the word at P, and a listed word is
fetched without a draw. -/
theorem stringRuleIgnoresTheWholeInstruction : Obligations.StringRuleIgnoresTheWholeInstruction := by
  intro s w hskip hw hlast hstring
  have hword : romWord s s.p = w := romWord_of_listed hw
  have hignore : stringIgnores (wordClass (romWord s s.p)) s.last = true :=
    stringIgnores_iff.mpr (by rw [hword, ← hlast]; exact ⟨hstring, rfl⟩)
  have hdraws : s.firstDraws = 0 := by rw [State.firstDraws, hw]; rfl
  have hstep := stepWith_string exec hskip hignore
  rw [hword, ignoreByString_beginStep hlast, hdraws] at hstep
  refine ⟨_, hstep, ?p, rfl, rfl, rfl, ?frame⟩
  case p =>
    rw [← addr_add_toNat]; rfl
  case frame =>
    exact (sameExcept_stepFields s _ s.skip false s.last false s.draws).narrow (by simp [Field.same])

/-- With nothing pending every instruction is executed. -/
theorem executes_of_last_none {s : State} (hskip : s.skip = false) (hlast : s.last = .none) (k : StringClass) :
    Executes k s := by
  refine ⟨hskip, ?_⟩
  rw [hlast]
  exact (em (k = .none)).imp_right Ne.symm

/-- What skipping a listed word answers. -/
theorem step_skips_listed {s : State} {w : RomWord} (hskip : s.skip = true) (hw : HoldsRom s s.p w)
    (hcounts : s.platform.skippedWordCountsInString = false) :
    step s = .next { s with p := s.p + 1#12, skip := false, sagf := false, sagNow := false, last := .none } := by
  have hdraws : s.firstDraws = 0 := by rw [State.firstDraws, hw]; rfl
  rw [step_eq, stepWith_skip exec hskip, ignoreBySkip_beginStep, hcounts, hdraws]
  rfl

/-- Settles O10: one word is skipped (D4), so the next step fetches at P + 1. -/
theorem secondWordOfASkippedInstructionRuns : Obligations.SecondWordOfASkippedInstructionRuns := by
  intro s w w2 w3 i rest hskip hcounts hw _ hw2 hw3 hdec
  have hskipped := step_skips_listed hskip hw hcounts
  have hthird : s.p + 1#12 + 1#12 = s.p + 2#12 := BitVec.add_assoc s.p 1#12 1#12
  obtain ⟨u, hexec, hstep⟩ := step_of_listed
    (s := { s with p := s.p + 1#12, skip := false, sagf := false, sagNow := false, last := .none })
    hw2 (w2 := w3) (by rw [HoldsRom, hthird]; exact hw3) hdec (executes_of_last_none rfl rfl _)
  exact ⟨_, u, hskipped, (sameExcept_stepFields s _ _ _ _ _ s.draws).narrow (by simp [Field.same]), hexec, hstep⟩

/-- Settles O12: the instruction finds P past its words and may not write it. -/
theorem pOutsideTransfersAdvancesByTheWordsFetched : Obligations.POutsideTransfersAdvancesByTheWordsFetched := by
  intro s i rest hdec hx htransfer
  obtain rfl := current_of_decode hdec
  obtain ⟨t, hexec, hstep⟩ := step_executes hx
  have hnot : Field.p ∉ writable s.current := by
    generalize s.current = i at htransfer
    cases i
    case rtn | rtnsk | t | tl | tml | tm => exact htransfer.elim
    all_goals simp [writable]
  have hp : t.p = s.p + BitVec.ofNat 12 s.current.words := exec_frame hexec .p hnot
  exact ⟨_, hstep, by rw [endStep_p, recordExecuted_p, hp, addr_add_toNat]⟩

/-- Settles O16: after reset nothing is pending, so the step executes the words that the program lists at RESET_P. -/
theorem firstStepExecutesTheWordAtResetP : Obligations.FirstStepExecutesTheWordAtResetP := by
  intro s w w2 i rest hreset hw hw2 hdec
  rw [← hreset.p] at hw hw2 ⊢
  obtain ⟨t, hexec, hstep⟩ := step_of_listed hw hw2 hdec (executes_of_last_none hreset.skip hreset.last _)
  have hfound : s.fetched i.words 0 = { s with p := s.p + BitVec.ofNat 12 i.words, sagNow := false } := by
    rw [State.fetched, hreset.sagf, Nat.add_zero, ← hreset.sagf]
  exact ⟨t, hfound ▸ hexec, hstep⟩

theorem holdsRom_placeWord_self (s : State) (adr : Addr) (w : RomWord) : HoldsRom (placeWord adr w s) adr w :=
  Memory.read_write_self s.rom adr.toNat w

theorem holdsRom_placeWord_other {s : State} {adr k : Addr} {w v : RomWord} (h : HoldsRom s k v) (hk : k ≠ adr) :
    HoldsRom (placeWord adr w s) k v :=
  (Memory.read_write_other s.rom (fun he => hk (BitVec.eq_of_toNat_eq he)) w).trans h

/-- Settles O24: the two placed words are listed at P and after it, and nothing is pending. -/
theorem placedInstructionIsRunNext : Obligations.PlacedInstructionIsRunNext := by
  intro s nbits w i hread
  have hne : s.p ≠ s.p + 1#12 := by bv_omega
  obtain ⟨rest, hdec⟩ : ∃ rest, decode [tableWord nbits w 0, tableWord nbits w 1] = .ok (i, rest) := by
    unfold decodeTableWord at hread
    split at hread
    · next j rest hok => cases hread; exact ⟨rest, hok⟩
    · cases hread
  exact step_of_listed (s := s.withFetchWord nbits w)
    (holdsRom_placeWord_other (holdsRom_placeWord_self s s.p _) hne) (holdsRom_placeWord_self _ _ _) hdec
    (executes_of_last_none rfl rfl _)

end Sys2Proof
end

section
/-! SUPPORT. What every step keeps (spec/10_state.md R28, R29, R33, R34, R38, spec/45_skip_and_flags.md R190f,
spec/44_input_output.md R180): the program, the record of writes, and who may touch RAM, SKIP, SAGF, LAST and the events. -/

namespace Sys2Proof.Machine

/-! ### The record of writes -/

/-- Whether the record says that element `f` was written; the record has no entry for the others. -/
def Written.has (w : Written) : Field → Bool
  | .a => w.a
  | .x => w.x
  | .bu => w.bu
  | .bm => w.bm
  | .bl => w.bl
  | .sa => w.sa != .never
  | .sb => w.sb != .never
  | .c => w.c
  | .ff1 => w.ff1
  | .ff2 => w.ff2
  | .doa => w.doa
  | .p | .ram | .skip | .sagf | .last | .sagNow | .rom | .platform | .world | .draws | .written => true

/-- What an instruction may write is recorded as written after it. -/
theorem has_recordWrites_of_writable {i : Instr} {f : Field} (h : f ∈ writable i) (w : Written) :
    (recordWrites i w).has f = true := by
  cases i <;> revert f <;> simp [writable, recordWrites, Written.has]

/-- No write is taken back. -/
theorem has_recordWrites_of_has {w : Written} {f : Field} (h : w.has f = true) (i : Instr) :
    (recordWrites i w).has f = true := by
  cases f
  case a => exact recordWrites_a i w h
  case x => exact recordWrites_x i w h
  case bu => exact recordWrites_bu i w h
  case bm => exact recordWrites_bm i w h
  case bl => exact recordWrites_bl i w h
  case sa => exact bne_iff_ne.mpr (recordWrites_sa i w (bne_iff_ne.mp h))
  case sb => exact bne_iff_ne.mpr (recordWrites_sb i w (bne_iff_ne.mp h))
  case c => exact recordWrites_c i w h
  case ff1 => exact recordWrites_ff1 i w h
  case ff2 => exact recordWrites_ff2 i w h
  case doa => exact recordWrites_doa i w h
  all_goals rfl

/-- A register still recorded as never written after a step was so before it, and keeps its value (log 28). -/
theorem StepCase.kept_of_unwritten {s t : State} (h : StepCase s t) {f : Field} (hf : t.written.has f = false) :
    s.written.has f = false ∧ f.same s t := by
  have hown : f ∉ [Field.p, .skip, .sagf, .last, .sagNow, .draws, .written] := by
    intro hmem
    cases f <;> simp [Written.has] at hf hmem
  have hflags : f ∉ [Field.p, .skip, .sagf, .last, .sagNow, .draws] := fun h =>
    hown (List.mem_append_left [Field.written] h)
  cases h with
  | skipped => exact ⟨hf, sameExcept_stepFields s _ _ _ _ _ _ f hflags⟩
  | ignored => exact ⟨hf, sameExcept_stepFields s _ s.skip _ s.last _ _ f hflags⟩
  | @executed hskip t hexec =>
    have hrecord : t.written = s.written := exec_frame hexec .written (written_notMem_writable _)
    rw [endStep_written, recordExecuted_written, hrecord] at hf
    have hnot : f ∉ writable s.current := fun hw => by simp [has_recordWrites_of_writable hw] at hf
    have hbefore : s.written.has f = false := by
      by_contra hhas
      simp [has_recordWrites_of_has (Bool.eq_true_of_not_eq_false hhas)] at hf
    have hsame := (StepCase.executed hskip hexec).same_or_written hown
    exact ⟨hbefore, hsame.resolve_right fun ⟨_, hw⟩ => hnot hw⟩

end Sys2Proof.Machine

namespace Sys2Proof
open Sys2Proof.Machine

/-- Settles O8: each of the eleven registers is kept by one lemma over the elements of the state. -/
theorem stepAlwaysAnswersANextState : Obligations.StepAlwaysAnswersANextState := by
  intro s
  obtain ⟨t, hstep, hcase⟩ := step_stepCase s
  have kept (f : Field) := hcase.kept_of_unwritten (f := f)
  refine ⟨t, hstep, kept .a, kept .x, kept .bu, kept .bm, kept .bl, ?sa, ?sb, kept .c, kept .ff1, kept .ff2, kept .doa⟩
  case sa => simpa [Written.has, Field.same] using kept .sa
  case sb => simpa [Written.has, Field.same] using kept .sb

/-- Settles O17: no instruction may write the ROM or the platform. -/
theorem noStepChangesTheProgram : Obligations.NoStepChangesTheProgram := by
  intro s
  obtain ⟨t, hstep, hcase⟩ := step_stepCase s
  have hrom : t.rom = s.rom :=
    (hcase.same_or_written (f := .rom) (by simp)).resolve_right fun ⟨_, hw⟩ => rom_notMem_writable _ hw
  have hplatform : t.platform = s.platform :=
    (hcase.same_or_written (f := .platform) (by simp)).resolve_right fun ⟨_, hw⟩ => platform_notMem_writable _ hw
  exact ⟨t, hstep, hrom, hplatform⟩

end Sys2Proof

namespace Sys2Proof.Machine

/-! ### RAM -/

/-- The first words of EX and EXD are the ones whose instruction may write RAM. -/
theorem word_of_ram_mem (w w2 : RomWord) (h : Field.ram ∈ writable (decodeWords w w2)) :
    0x28 ≤ w.toNat ∧ w.toNat ≤ 0x2F ∨ 0x38 ≤ w.toNat ∧ w.toNat ≤ 0x3F := by
  revert h
  exact decodeWords_induction
    (P := fun w i => Field.ram ∈ writable i → 0x28 ≤ w.toNat ∧ w.toNat ≤ 0x2F ∨ 0x38 ≤ w.toNat ∧ w.toNat ≤ 0x3F)
    (by simp [writable]) (by simp [writable]) (by simp [writable]) (by simp [writable]) (by decide) w w2

/-- An instruction changes the content of no RAM address but its own, which then holds the old A. -/
theorem exec_ramContent_changed {i : Instr} {s t : State} (h : exec i s = .next t) {adr : Addr}
    (hne : ramContent t adr ≠ ramContent s adr) : adr = ramAddr s ∧ ramContent t adr = some s.a := by
  have hplatform : t.platform = s.platform := exec_frame h .platform (platform_notMem_writable i)
  obtain hram | hram := exec_ram_cases h
  · exact absurd (ramContent_congr hram hplatform adr) hne
  · have hstore : ramContent t adr = ramContent (ramWrite (ramAddr s) s.a s) adr := ramContent_congr hram hplatform adr
    rw [ramContent_ramWrite] at hstore
    split_ifs at hstore with hadr
    · exact ⟨hadr.1, hstore⟩
    · exact absurd hstore hne

theorem ramAddr_fetched_toNat (s : State) (n d : Nat) :
    (ramAddr (s.fetched n d)).toNat = if s.sagf then s.bl.toNat else s.b.toNat := by
  show (if s.sagf then 0x00#8 ++ s.bl else s.b : Addr).toNat = _
  split_ifs
  · exact sagAddr_toNat s.bl
  · rfl

end Sys2Proof.Machine

namespace Sys2Proof
open Sys2Proof.Machine

/-- Settles O18: RAM changes only in an executed step, and then as `exec` changes it. -/
theorem onlyExchangesWriteRam : Obligations.OnlyExchangesWriteRam := by
  intro s
  obtain ⟨t, hstep, hcase⟩ := step_stepCase s
  refine ⟨t, hstep, fun adr hne => ?_⟩
  obtain hsame | ⟨hskip, hw⟩ := hcase.same_or_written (f := .ram) (by simp)
  · exact absurd (hsame adr) hne
  · cases hcase with
    | skipped | ignored => exact absurd (ramContent_congr rfl rfl adr) hne
    | @executed _ t hexec =>
      obtain ⟨rfl, hold⟩ := exec_ramContent_changed (t := t) hexec hne
      exact ⟨hskip, word_of_ram_mem _ _ hw, ramAddr_fetched_toNat s _ _, hold⟩

/-- Settles O19: the twelve are the instructions that may write SKIP. -/
theorem onlySkipInstructionsSetSkip : Obligations.OnlySkipInstructionsSetSkip := by
  intro s
  obtain ⟨t, hstep, hcase⟩ := step_stepCase s
  refine ⟨t, hstep, fun ht => ?_⟩
  cases hcase with
  | skipped => cases ht
  | ignored hskip => exact absurd (hskip.symm.trans ht) Bool.false_ne_true
  | executed hskip hexec =>
    refine ⟨hskip, ?_⟩
    have hmem : Field.skip ∈ writable (decodeWords (romWord s s.p) (romWord (beginStep s) (s.p + 1#12))) :=
      skip_mem_of_executed hexec hskip ht
    generalize decodeWords (romWord s s.p) (romWord (beginStep s) (s.p + 1#12)) = i at hmem ⊢
    cases i <;> simp [writable] at hmem ⊢

/-- The word of SAG is 0x13 alone. -/
theorem decodeWords_eq_sag_iff (w w2 : RomWord) : decodeWords w w2 = .sag ↔ w = 0x13#8 :=
  decodeWords_induction (P := fun w i => i = .sag ↔ w = 0x13#8) (by simp) (by simp)
    (fun d _ _ _ => iff_of_false nofun ((by decide : ∀ d : Nibble, 0b0000#4 ++ d ≠ 0x13#8) d))
    (fun d _ => iff_of_false nofun ((by decide : ∀ d : Nibble, 0b0101#4 ++ d ≠ 0x13#8) d)) (by decide) w w2

/-- Settles O20: SAGF is used up by every step, and only SAG may write it. -/
theorem sagfIsSetExactlyBySag : Obligations.SagfIsSetExactlyBySag := by
  intro s
  obtain ⟨t, hstep, hcase⟩ := step_stepCase s
  refine ⟨t, hstep, ?_⟩
  cases hcase with
  | skipped hskip => simp [State.fetched, hskip]
  | ignored hskip hlast hstring =>
    have hnot : romWord s s.p ≠ 0x13#8 := fun h => hstring (by rw [hlast, h]; rfl)
    simp [State.fetched, hnot]
  | @executed hskip t hexec =>
    rw [← decodeWords_eq_sag_iff _ (romWord (beginStep s) (s.p + 1#12))]
    refine ⟨fun ht => ⟨hskip, eq_sag_of_executed hexec ht⟩, fun ⟨_, hsag⟩ => ?_⟩
    rw [show s.current = .sag from hsag, exec_sag] at hexec
    cases hexec
    rfl

/-- Settles O21: an ignored word has the class that LAST holds already. -/
theorem lastIsTheClassOfTheWordFetched : Obligations.LastIsTheClassOfTheWordFetched := by
  intro s
  obtain ⟨t, hstep, hcase⟩ := step_stepCase s
  refine ⟨t, hstep, ?_⟩
  cases hcase with
  | skipped hskip => cases s.platform.skippedWordCountsInString <;> simp [hskip]
  | ignored hskip hlast => simp [hskip, State.fetched, hlast]
  | executed hskip => simp [hskip, stringClass_current]

end Sys2Proof

namespace Sys2Proof.Machine

/-! ### Events -/

/-- An instruction adds at most one event, and only if it may reach the environment (R180). -/
theorem exec_events {i : Instr} {s t : State} (h : exec i s = .next t) :
    ∃ es, t.world.events = s.world.events ++ es ∧ es.length ≤ 1 ∧ (es ≠ [] → Field.world ∈ writable i) := by
  by_cases hw : Field.world ∈ writable i
  · suffices ∃ e, t.world.events = s.world.events ++ [e] by
      obtain ⟨e, he⟩ := this
      exact ⟨[e], he, le_rfl, fun _ => hw⟩
    cases i
    case dia | dib | doa | iol => cases h; exact ⟨_, rfl⟩
    all_goals simp [writable] at hw
  · have hsame : t.world = s.world := exec_frame h .world hw
    exact ⟨[], by rw [hsame, List.append_nil], Nat.zero_le 1, fun h => absurd rfl h⟩

/-- The first words of DIA, DIB, DOA and IOL are the ones whose instruction may reach the environment. -/
theorem word_of_world_mem (w w2 : RomWord) (h : Field.world ∈ writable (decodeWords w w2)) :
    w ∈ [0x27#8, 0x23#8, 0x1D#8, 0x1C#8] := by
  revert h
  exact decodeWords_induction (P := fun w i => Field.world ∈ writable i → w ∈ [0x27#8, 0x23#8, 0x1D#8, 0x1C#8])
    (by simp [writable]) (by simp [writable]) (by simp [writable]) (by simp [writable]) (by decide) w w2

end Sys2Proof.Machine

namespace Sys2Proof
open Sys2Proof.Machine

/-- Settles O22: only an executed instruction reaches the environment. -/
theorem onlyInputOutputAddsAnEvent : Obligations.OnlyInputOutputAddsAnEvent := by
  intro s
  obtain ⟨t, hstep, hcase⟩ := step_stepCase s
  cases hcase with
  | skipped | ignored => exact ⟨_, [], hstep, (List.append_nil _).symm, Nat.zero_le 1, fun h => absurd rfl h⟩
  | executed hskip hexec =>
    obtain ⟨es, hevents, hlen, hmem⟩ := exec_events hexec
    exact ⟨_, es, hstep, hevents, hlen, fun hne => ⟨hskip, word_of_world_mem _ _ (hmem hne)⟩⟩

/-- Settles O23: the T at P is listed, so no value is drawn, and its target is P again. -/
theorem endedRunStaysAsItIs : Obligations.EndedRunStaysAsItIs := by
  rintro s ⟨hskip, field, hw, htarget⟩
  obtain ⟨t, hexec, hstep⟩ := step_of_listed_oneWord hw (decode_encode (.t field) rfl) ⟨hskip, .inl rfl⟩
  rw [exec_t] at hexec
  cases hexec
  have hp : inPage (s.fetched 1 0).p field = s.p := htarget
  rw [hp] at hstep
  exact ⟨_, hstep, ⟨hskip, field, hw, htarget⟩, rfl, rfl, rfl,
    (sameExcept_stepFields s s.p s.skip false .none false s.draws).narrow (by simp [Field.same])⟩

end Sys2Proof
end

section
/-! SUPPORT. Memories and RAM (spec/20_memory.md R54 to R56): a memory in canonical form is its content, and what EX
stores is read back. -/

namespace Sys2Proof.Machine

/-- Memories whose lowest addresses are bounded alike and that read alike are the same list: neither can list an address
below the first of the other. -/
theorem Memory.eq_of_read_eq {w lo : Nat} {m m' : Memory w} (hm : Memory.risingFrom lo m = true)
    (hm' : Memory.risingFrom lo m' = true) (h : ∀ n, Memory.read m n = Memory.read m' n) : m = m' := by
  induction m generalizing lo m' with
  | nil =>
    cases m' with
    | nil => rfl
    | cons e m' =>
      obtain ⟨k, v⟩ := e
      simpa [Memory.read_cons] using h k
  | cons e m ih =>
    obtain ⟨k, v⟩ := e
    cases m' with
    | nil => simpa [Memory.read_cons] using h k
    | cons e' m' =>
      obtain ⟨k', v'⟩ := e'
      obtain ⟨-, -, hrest⟩ := Memory.risingFrom_cons.mp hm
      obtain ⟨-, -, hrest'⟩ := Memory.risingFrom_cons.mp hm'
      have hk : k = k' := by
        by_contra hne
        have hread := h k
        have hread' := h k'
        rw [Memory.read_cons, Memory.read_cons, if_pos rfl, if_neg (Ne.symm hne)] at hread
        rw [Memory.read_cons, Memory.read_cons, if_neg hne, if_pos rfl] at hread'
        obtain hlt | hlt := Nat.lt_or_gt_of_ne hne
        · rw [Memory.read_of_lt hrest' (by omega)] at hread; cases hread
        · rw [Memory.read_of_lt hrest (by omega)] at hread'; cases hread'
      subst hk
      have hv : v = v' := by simpa [Memory.read_cons] using h k
      have hrestRead (n : Nat) : Memory.read m n = Memory.read m' n := by
        by_cases hn : k = n
        · rw [Memory.read_of_lt hrest (by omega), Memory.read_of_lt hrest' (by omega)]
        · simpa [Memory.read_cons, hn] using h n
      rw [hv, ih hrest hrest' hrestRead]

/-- A read of an address without content gives the next free value. -/
theorem ramWord_of_unpopulated {s : State} {adr : Addr} (h : ramPopulated s adr = false) :
    ramWord s adr = Config.freeRamWord s.draws adr := by
  rw [ramWord, ramContent_of_unpopulated h]; rfl

end Sys2Proof.Machine

namespace Sys2Proof
open Sys2Proof.Machine

/-- Settles O29: both memories rise from address 0. -/
theorem canonicalMemoriesAreDeterminedByContent : Obligations.CanonicalMemoriesAreDeterminedByContent :=
  fun _ _ hm hm' h => Memory.eq_of_read_eq hm hm' h

/-- Settles O26: B by its digits, and the address after a SAG by BL. -/
theorem ramAddressOfAStep : Obligations.RamAddressOfAStep := by
  intro s
  refine ⟨b_toNat s, ?_⟩
  unfold ramAddr
  split_ifs
  · rw [sagAddr_toNat, bl_toNat]
  · rfl

/-- Settles O27: the content after EX is the old A at the RAM address and the old content elsewhere, and a read of a
populated address gives its content. -/
theorem storedWordIsReadBack : Obligations.StoredWordIsReadBack := by
  intro s n hpopulated
  refine ⟨_, exec_ex s n, fun u hram hplatform hadr => ?_, fun u v hram hplatform hadr hcontent => ?_⟩
  · refine ramWord_of_content ?_
    rw [hadr, ramContent_congr hram hplatform, ramContent_exchange_self n hpopulated]
  · refine ramWord_of_content ?_
    rw [ramContent_congr hram hplatform, ramContent_exchange_other n hadr, hcontent]

/-- Settles O28: at an unpopulated address the write is lost and the read draws. -/
theorem unpopulatedRamLosesWrites : Obligations.UnpopulatedRamLosesWrites := by
  intro s n hunpopulated
  refine ⟨_, exec_ex s n, ?ram, ramWord_of_unpopulated hunpopulated, ?draws⟩
  case ram => rw [exchangeAndStepB_ram, hunpopulated]; rfl
  case draws => rw [exchangeAndStepB_draws, hunpopulated]; rfl

end Sys2Proof
end

section
/-! SUPPORT. Data address (spec/40_data_address.md R100 to R102, R104, R105, R107): LB and LBL with the string rule, SAG,
the steps of BL, and LBUA. -/

namespace Sys2Proof
open Sys2Proof.Machine

theorem lb_word (i : Nibble) : BitVec.ofNat 8 (0xC0 + i.toNat) = 0b1100#4 ++ i := by revert i; decide

theorem lbl_secondWord (v : RomWord) : BitVec.ofNat 8 (255 - v.toNat) = ~~~v := by revert v; decide

theorem wordClass_lb (i : Nibble) : wordClass (0b1100#4 ++ i) = .lb ∧ 0b1100#4 ++ i ≠ 0x00#8 := by revert i; decide

theorem lbTableAddr_eq (i : Nibble) : BitVec.ofNat 12 (0x0C0 + i.toNat) = lbTableAddr i := by revert i; decide

/-- `BU <- 0; B(8:1) <- v` makes B the value v (R100, R101). -/
theorem loadB8_b_toNat (v : RomWord) (s : State) : (loadB8 v s).b.toNat = v.toNat := by
  have hv := v.isLt
  rw [b_toNat, loadB8_bu, loadB8_bm, loadB8_bl]
  simp only [BitVec.extractLsb'_toNat, Nat.shiftRight_eq_div_pow, BitVec.toNat_ofNat]
  omega

/-- O11 for an ignored instruction of one word. -/
theorem step_ignores_oneWord {s : State} {w : RomWord} (hskip : s.skip = false) (hw : HoldsRom s s.p w)
    (hlast : s.last = wordClass w) (hstring : s.last ≠ .none) (hone : w ≠ 0x00#8) :
    ∃ t, step s = .next t ∧ t.p.toNat = (s.p.toNat + 1) % 4096 ∧ t.sagf = false ∧ t.sagNow = false ∧
      t.last = s.last ∧ SameExcept [.p, .sagf, .sagNow] s t := by
  have hignored := stringRuleIgnoresTheWholeInstruction s w hskip hw hlast hstring
  rwa [if_neg hone] at hignored

/-- Settles O30: LB by its equation without the excursion, and the ignored LB by the string rule. -/
theorem lbLoadsBFromThePageThreeTable : Obligations.LbLoadsBFromThePageThreeTable := by
  intro i
  rw [lb_word, lbTableAddr_eq, ← lbTableAddr_toNat]
  refine ⟨codedAs_encode rfl, fun s => ⟨_, exec_lb s i, ?b, rfl, exec_frame (exec_lb s i), ?draws⟩,
    fun s hskip hw hlast => ?ignored⟩
  case b => rw [loadB8_b_toNat]; exact BitVec.toNat_not
  case draws => intro hlisted; simp [hlisted]
  case ignored =>
    obtain ⟨hclass, hword⟩ := wordClass_lb i
    obtain ⟨t, hstep, hp, hsagf, hsagNow, hkeep, hframe⟩ :=
      step_ignores_oneWord hskip hw (hlast.trans hclass.symm) (by rw [hlast]; nofun) hword
    exact ⟨t, hstep, hp, hkeep.trans hlast, hsagf, hsagNow, hframe⟩

/-- Settles O31: LBL loads the value, and the ignored LBL is passed over whole by the string rule. -/
theorem lblLoadsBFromItsSecondWord : Obligations.LblLoadsBFromItsSecondWord := by
  intro v
  rw [lbl_secondWord]
  refine ⟨codedAs_encode rfl, fun s => ⟨_, exec_lbl s v, loadB8_b_toNat v s, exec_frame (exec_lbl s v)⟩,
    fun s hskip hw hlast => ?ignored⟩
  case ignored =>
    obtain ⟨t, hstep, hp, hsagf, hsagNow, hkeep, hframe⟩ :=
      stringRuleIgnoresTheWholeInstruction s 0x00#8 hskip hw hlast (by rw [hlast]; nofun)
    exact ⟨t, hstep, hp, hkeep.trans hlast, hsagf, hsagNow, hframe⟩

/-- Settles O32: SAG sets SAGF, which the fetch turns into the address of BL alone. -/
theorem sagZeroesTheUpperAddressBitsOfTheNextStep : Obligations.SagZeroesTheUpperAddressBitsOfTheNextStep := by
  refine ⟨codedAs_encode rfl, fun s => ⟨_, exec_sag s, rfl, exec_frame (exec_sag s)⟩, fun s n d hsagf => ⟨?_, rfl, rfl⟩⟩
  rw [ramAddr_fetched_toNat, hsagf]; rfl

theorem nibble_beq_iff (u v : Nibble) : (u == v) = true ↔ u.toNat = v.toNat := by
  rw [beq_iff_eq, BitVec.toNat_eq]

/-- SKIP after a request is SKIP before it or the condition (R190). -/
theorem skipIf_skip_iff (cond : Bool) (s : State) : (skipIf cond s).skip = true ↔ s.skip = true ∨ cond = true :=
  Bool.or_eq_true_iff

/-- Settles O34: BL is stepped modulo 16, and the request is on the new BL. -/
theorem incbAndDecbStepBlAndSkipOnTheWrap : Obligations.IncbAndDecbStepBlAndSkipOnTheWrap := by
  refine ⟨codedAs_encode rfl, codedAs_encode rfl, fun s => ⟨?incb, ?decb⟩⟩
  all_goals have hbl := s.bl.isLt
  case incb =>
    refine ⟨_, exec_incb s, incNibble_toNat s.bl, ?_, ?_, exec_frame (exec_incb s)⟩
    · rw [skipIf_skip_iff, nibble_beq_iff]; rfl
    · rw [skipIf_bl, incNibble_toNat]; omega
  case decb =>
    refine ⟨_, exec_decb s, decNibble_toNat s.bl, ?_, ?_, exec_frame (exec_decb s)⟩
    · rw [skipIf_skip_iff, nibble_beq_iff]; rfl
    · rw [skipIf_bl, decNibble_toNat]; omega

/-- Settles O35: the word is read before BU changes (D8). -/
theorem lbuaLoadsBuAndReadsAtTheOldAddress : Obligations.LbuaLoadsBuAndReadsAtTheOldAddress := by
  refine ⟨codedAs_encode rfl, fun s => ⟨_, exec_lbua s, rfl, rfl, ?b, exec_frame (exec_lbua s), ?draws⟩⟩
  case b =>
    have hm := s.bm.isLt
    have hl := s.bl.isLt
    rw [b_toNat, b_toNat s]
    simp only [afterRamRead_bm, afterRamRead_bl]
    omega
  case draws => intro hpopulated; simp [hpopulated]

end Sys2Proof
end

section
/-! SUPPORT. Data transfer (spec/41_data_transfer.md R120 to R123, R128): CYS, the loads and exchanges with RAM, and LDI
with the string rule. -/

namespace Sys2Proof
open Sys2Proof.Machine

theorem digits_toNat (x y z : Nibble) : (x ++ y ++ z : Addr).toNat = x.toNat * 256 + y.toNat * 16 + z.toNat := by
  have hx := x.isLt; have hy := y.isLt; have hz := z.isLt
  simp only [BitVec.toNat_append]
  rw [← Nat.shiftLeft_add_eq_or_of_lt hy, ← Nat.shiftLeft_add_eq_or_of_lt hz]
  simp only [Nat.shiftLeft_eq]; omega

/-- A 12-bit address is three digits. -/
theorem addr_digits (adr : Addr) : ∃ x y z : Nibble, adr = x ++ y ++ z := by
  have h := adr.isLt
  refine ⟨adr.extractLsb' 8 4, adr.extractLsb' 4 4, adr.extractLsb' 0 4, BitVec.eq_of_toNat_eq ?_⟩
  rw [digits_toNat]
  simp only [BitVec.extractLsb'_toNat, Nat.shiftRight_eq_div_pow]; omega

theorem lowDigit_digits (x y z : Nibble) : lowDigit (x ++ y ++ z) = z := by
  have hz := z.isLt
  apply BitVec.eq_of_toNat_eq
  rw [lowDigit_toNat, digits_toNat]; omega

theorem shiftInDigit_digits (d x y z : Nibble) : shiftInDigit d (x ++ y ++ z) = d ++ x ++ y := by
  have hz := z.isLt
  apply BitVec.eq_of_toNat_eq
  rw [shiftInDigit_toNat, digits_toNat, digits_toNat]; omega

/-- CYS on the digits of the ring A, SA. -/
theorem exec_cys_digits {s : State} {x y z : Nibble} (h : s.sa = x ++ y ++ z) :
    exec .cys s = .next { s with a := z, sa := s.a ++ x ++ y } := by
  rw [exec_cys, h, lowDigit_digits, shiftInDigit_digits]

/-- Settles O37: both right-hand sides are old values (D11). -/
theorem cysRotatesSaThroughA : Obligations.CysRotatesSaThroughA := by
  refine ⟨codedAs_encode rfl, fun s => ⟨_, exec_cys s, lowDigit_toNat s.sa, shiftInDigit_toNat s.a s.sa, ?_⟩⟩
  exact exec_frame (exec_cys s)

/-- Settles O38: the ring of A and SA has four digits, so four rotations bring each digit back. -/
theorem fourCysRestoreAAndSa : Obligations.FourCysRestoreAAndSa := by
  intro s
  obtain ⟨x, y, z, hsa⟩ := addr_digits s.sa
  refine ⟨_, _, _, exec_cys_digits hsa, exec_cys_digits rfl, exec_cys_digits rfl, ?_⟩
  rw [exec_cys_digits rfl, ← hsa]

theorem ld_word (n : BitVec 3) : BitVec.ofNat 8 (0x30 + (7 - n.toNat)) = 0b00110#5 ++ ~~~n := by revert n; decide

theorem ex_word (n : BitVec 3) : BitVec.ofNat 8 (0x38 + (7 - n.toNat)) = 0b00111#5 ++ ~~~n := by revert n; decide

theorem exd_word (n : BitVec 3) : BitVec.ofNat 8 (0x28 + (7 - n.toNat)) = 0b00101#5 ++ ~~~n := by revert n; decide

theorem ldi_word (n : Nibble) : BitVec.ofNat 8 (0x70 + (15 - n.toNat)) = 0b0111#4 ++ ~~~n := by revert n; decide

theorem loadAndStepB_b_toNat (n : BitVec 3) (s : State) :
    (loadAndStepB n s).b.toNat = s.b.toNat ^^^ (n.toNat * 16) := by
  rw [b_toNat]
  exact bmXor_toNat s n

theorem exchangeAndStepB_b_toNat (n : BitVec 3) (s : State) :
    (exchangeAndStepB n s).b.toNat = s.b.toNat ^^^ (n.toNat * 16) :=
  loadAndStepB_b_toNat n s

theorem loadAndStepB_draws_of_populated {s : State} (h : ramPopulated s (ramAddr s) = true) (n : BitVec 3) :
    (loadAndStepB n s).draws = s.draws := by
  rw [loadAndStepB_draws, h]; rfl

/-- Settles O39: the word is read at the old B. -/
theorem ldLoadsAAndStepsB : Obligations.LdLoadsAAndStepsB := by
  intro n
  rw [ld_word]
  exact ⟨codedAs_encode rfl, fun s => ⟨_, exec_ld s n, rfl, loadAndStepB_b_toNat n s, exec_frame (exec_ld s n),
    fun h => loadAndStepB_draws_of_populated h n⟩⟩

/-- Settles O40: the exchange is at the old B. -/
theorem exExchangesAWithMemoryAndStepsB : Obligations.ExExchangesAWithMemoryAndStepsB := by
  intro n
  rw [ex_word]
  exact ⟨codedAs_encode rfl, fun s => ⟨_, exec_ex s n, rfl,
    fun h => ⟨ramContent_exchange_self n h, loadAndStepB_draws_of_populated h n⟩,
    fun _ hadr => ramContent_exchange_other n hadr, exchangeAndStepB_b_toNat n s, exec_frame (exec_ex s n)⟩⟩

/-- Another low digit behind the same two upper ones. -/
theorem replace_lowDigit (x y d : Nat) {z : Nat} (hz : z < 16) :
    x * 256 + y * 16 + d = (x * 256 + y * 16 + z) / 16 * 16 + d := by omega

/-- Settles O41: EXD is EX and then a step of BL. -/
theorem exdExchangesStepsBAndDecrementsBl : Obligations.ExdExchangesStepsBAndDecrementsBl := by
  intro n
  rw [exd_word]
  refine ⟨codedAs_encode rfl, fun s => ⟨_, exec_exd s n, rfl,
    fun h => ⟨ramContent_exchange_self n h, loadAndStepB_draws_of_populated h n⟩,
    fun _ hadr => ramContent_exchange_other n hadr, ?b, ?skip, exec_frame (exec_exd s n)⟩⟩
  all_goals have hbl := s.bl.isLt
  case b =>
    have hstepped := exchangeAndStepB_b_toNat n s
    rw [b_toNat] at hstepped ⊢
    rw [← hstepped, ← decNibble_toNat]
    exact replace_lowDigit _ _ _ hbl
  case skip =>
    rw [skipIf_skip_iff, nibble_beq_iff, decNibble_toNat]
    exact or_congr_right (by show (s.bl.toNat + 15) % 16 = 15 ↔ _; omega)

theorem wordClass_ldi (n : Nibble) : wordClass (0b0111#4 ++ ~~~n) = .ldi ∧ 0b0111#4 ++ ~~~n ≠ 0x00#8 := by
  revert n; decide

/-- Settles O43: after an LDI the string rule passes over it, and otherwise it is executed. -/
theorem ldiLoadsAExceptAfterAnLdi : Obligations.LdiLoadsAExceptAfterAnLdi := by
  intro n
  rw [ldi_word]
  refine ⟨codedAs_encode rfl, fun s => ⟨_, exec_ldi s n, rfl, exec_frame (exec_ldi s n)⟩, fun s hskip hw => ?_⟩
  by_cases hlast : s.last = .ldi
  case pos =>
    obtain ⟨hclass, hword⟩ := wordClass_ldi n
    obtain ⟨t, hstep, hp, hsagf, hsagNow, hkeep, hframe⟩ :=
      step_ignores_oneWord hskip hw (hlast.trans hclass.symm) (by rw [hlast]; nofun) hword
    have ha : t.a = s.a := hframe .a (by simp)
    have hwritten : t.written = s.written := hframe .written (by simp)
    rw [if_pos hlast, if_pos hlast]
    exact ⟨t, hstep, hp, hkeep.trans hlast, hsagf, hsagNow, ha, hwritten, hframe.mono (by simp)⟩
  case neg =>
    obtain ⟨t, hexec, hstep⟩ := step_of_listed_oneWord hw (decode_encode (.ldi n) rfl) ⟨hskip, .inr hlast⟩
    have hframe := (sameExcept_executed hexec (Instr.ldi n).stringClass).narrow
      (l' := [.a, .p, .last, .sagf, .sagNow, .written])
    rw [exec_ldi] at hexec
    cases hexec
    rw [if_neg hlast, if_neg hlast]
    exact ⟨_, hstep, addr_add_toNat s.p 1, rfl, rfl, rfl, rfl, rfl, hframe (by simp [Field.same, writable, State.fetched])⟩

end Sys2Proof
end

section
/-! SUPPORT. Control transfer (spec/42_control_transfer.md R141 to R143, R145, R146): the returns, T, the calls, and the
depth of the return stack. -/

namespace Sys2Proof
open Sys2Proof.Machine

/-- Settles O44: after RTNSK the word at the return address is skipped by the next step. -/
theorem returnsPopTheStack : Obligations.ReturnsPopTheStack := by
  refine ⟨codedAs_encode rfl, codedAs_encode rfl, fun s => ⟨?rtn, ?rtnsk⟩⟩
  case rtn => exact ⟨_, exec_rtn s, rfl, rfl, rfl, exec_frame (exec_rtn s)⟩
  case rtnsk =>
    have hskip : (skipIf true (popReturn s)).skip = true := (skipIf_skip_iff true _).mpr (.inr rfl)
    obtain ⟨u, hstep, hp, hnoSkip, -⟩ :=
      skipIgnoresExactlyOneWord { skipIf true (popReturn s) with last := .none, sagNow := false } hskip
    exact ⟨_, exec_rtnsk s, rfl, rfl, rfl, hskip, exec_frame (exec_rtnsk s), u, hstep, hp, hnoSkip⟩

theorem t_word (field : BitVec 6) : BitVec.ofNat 8 (0x80 + field.toNat) = 0b10#2 ++ field := by revert field; decide

/-- Settles O45: the page is that of the advanced P (D9). -/
theorem transferStaysInThePageOfTheNextWord : Obligations.TransferStaysInThePageOfTheNextWord := by
  intro field
  rw [t_word]
  exact ⟨codedAs_encode rfl, fun s => ⟨_, exec_t s field, inPage_toNat s.p field, exec_frame (exec_t s field)⟩⟩

theorem tml_firstWord (d : Nibble) : BitVec.ofNat 8 d.toNat = 0b0000#4 ++ d := by revert d; decide

/-- Settles O47: the two words are the target's top digit and its low eight bits. -/
theorem tmlCallsAndSavesTheAddressAfterItsSecondWord :
    Obligations.TmlCallsAndSavesTheAddressAfterItsSecondWord := by
  intro target hlow hhigh
  have hwf : (Instr.tml target).wf = true := by simp [Instr.wf, tmlEncodable, hlow, hhigh]
  rw [addr_toNat_div, tml_firstWord, ofNat_addr_mod]
  exact ⟨codedAs_encode hwf, fun s => ⟨_, exec_tml s target, rfl, rfl, rfl, exec_frame (exec_tml s target)⟩⟩

theorem tm_word (k : BitVec 6) : BitVec.ofNat 8 (0xC0 + k.toNat) = 0b11#2 ++ k := by revert k; decide

theorem tmPointerAddr_eq (k : BitVec 6) : BitVec.ofNat 12 (0x0C0 + k.toNat) = tmPointerAddr k := by revert k; decide

/-- Settles O48: TM by its equation, whose pointer word is read at 0x0C0 + k. -/
theorem tmCallsThroughThePageThreePointer : Obligations.TmCallsThroughThePageThreePointer := by
  intro k hk
  have hwf : (Instr.tm k).wf = true := decide_eq_true hk
  rw [tm_word, tmPointerAddr_eq, ← tmPointerAddr_toNat]
  refine ⟨codedAs_encode hwf, fun s => ⟨_, exec_tm s k, tmEntry_toNat _, rfl, rfl, exec_frame (exec_tm s k), ?draws⟩⟩
  case draws => intro hlisted; simp [hlisted]

/-- Settles O49: a call pushes onto SA and SB, a return pops; there is no third place. -/
theorem returnStackIsTwoDeep : Obligations.ReturnStackIsTwoDeep := by
  intro s e1 e2 e3 r2 r3
  exact ⟨_, _, _, _, _, _, exec_tml s e1, exec_tml _ e2, exec_rtn _, rfl, exec_rtn _, rfl, exec_tml _ e3, rfl, rfl,
    exec_rtn _, rfl, rfl, rfl⟩

end Sys2Proof
end

section
/-! SUPPORT. Arithmetic and logic (spec/43_arithmetic_logic.md R160 to R170): the sum of R160 as numbers, the instructions,
and the two idioms. -/

namespace Sys2Proof.Machine

theorem exactSum_lt (u v : Nibble) (cin : Bool) : exactSum u v cin < 32 := by
  have hu := u.isLt
  have hv := v.isLt
  have hc := Bool.toNat_le cin
  unfold exactSum; omega

theorem exactSum_false (u v : Nibble) : exactSum u v false = u.toNat + v.toNat := rfl

/-- The carry is the quotient of the exact sum by 16 (R160). -/
theorem carryOut_toNat {sum : Nat} (h : sum < 32) : (carryOut sum).toNat = sum / 16 := by
  unfold carryOut
  by_cases hcarry : 16 ≤ sum
  · rw [decide_eq_true hcarry, Bool.toNat_true]; omega
  · rw [decide_eq_false hcarry, Bool.toNat_false]; omega

/-- No value is drawn to read a populated address. -/
theorem afterRamRead_draws_of_populated {s : State} (h : ramPopulated s (ramAddr s) = true) :
    (afterRamRead (ramAddr s) s).draws = s.draws := by
  rw [afterRamRead_draws, h]; rfl

end Sys2Proof.Machine

namespace Sys2Proof
open Sys2Proof.Machine

/-- Settles O50: the four differ in the carry-in and in the request to skip. -/
theorem additionsLoadAAndC : Obligations.AdditionsLoadAAndC := by
  refine ⟨codedAs_encode rfl, codedAs_encode rfl, codedAs_encode rfl, codedAs_encode rfl, fun i s hi => ?_⟩
  have hcin : s.c.toNat = if s.c = true then 1 else 0 := by cases s.c <;> rfl
  have hdraws (h : ramPopulated s (ramAddr s) = true) := afterRamRead_draws_of_populated h
  simp only [List.mem_cons, List.not_mem_nil, or_false] at hi
  obtain rfl | rfl | rfl | rfl := hi
  case inl =>
    exact ⟨_, exactSum s.a (ramOperand s) false, by simp [exactSum, ramOperand], exec_ad s, sumNibble_toNat _,
      carryOut_toNat (exactSum_lt _ _ _), by simp, (exec_frame (exec_ad s)).mono (by simp [writable]), hdraws⟩
  case inr.inl =>
    exact ⟨_, exactSum s.a (ramOperand s) s.c, by simp [exactSum, ramOperand, hcin], exec_adc s, sumNibble_toNat _,
      carryOut_toNat (exactSum_lt _ _ _), by simp, (exec_frame (exec_adc s)).mono (by simp [writable]), hdraws⟩
  case inr.inr.inl =>
    exact ⟨_, exactSum s.a (ramOperand s) s.c, by simp [exactSum, ramOperand, hcin], exec_adcsk s, sumNibble_toNat _,
      carryOut_toNat (exactSum_lt _ _ _), by simp [carryOut_iff], exec_frame (exec_adcsk s) |>.mono (by simp [writable]),
      hdraws⟩
  case inr.inr.inr =>
    exact ⟨_, exactSum s.a (ramOperand s) false, by simp [exactSum, ramOperand], exec_adsk s, sumNibble_toNat _,
      carryOut_toNat (exactSum_lt _ _ _), by simp [carryOut_iff], exec_frame (exec_adsk s) |>.mono (by simp [writable]),
      hdraws⟩

/-- Settles O51: the value of the bitwise result is the bitwise result of the values. -/
theorem logicActsBitByBit : Obligations.LogicActsBitByBit := by
  refine ⟨codedAs_encode rfl, codedAs_encode rfl, codedAs_encode rfl, codedAs_encode rfl,
    fun s => ⟨?and, ?or, ?eor, ?comp⟩⟩
  case and => exact ⟨_, exec_and s, BitVec.toNat_and _ _, exec_frame (exec_and s), afterRamRead_draws_of_populated⟩
  case or => exact ⟨_, exec_or s, BitVec.toNat_or _ _, exec_frame (exec_or s), afterRamRead_draws_of_populated⟩
  case eor => exact ⟨_, exec_eor s, BitVec.toNat_xor _ _, exec_frame (exec_eor s), afterRamRead_draws_of_populated⟩
  case comp => exact ⟨_, exec_comp s, BitVec.toNat_not, exec_frame (exec_comp s)⟩

theorem adi_word (n : Nibble) : BitVec.ofNat 8 (0x60 + (15 - n.toNat)) = 0b0110#4 ++ ~~~n := by revert n; decide

/-- Settles O52: the request is the carry out of the sum, which C does not receive. -/
theorem adiAddsAndSkipsOnCarryOut : Obligations.AdiAddsAndSkipsOnCarryOut := by
  intro n h0 h10
  have hwf : (Instr.adi n).wf = true := by simp [Instr.wf, adiEncodable, h0, h10]
  rw [adi_word]
  refine ⟨codedAs_encode hwf, fun s => ⟨_, exec_adi s n, sumNibble_toNat _, ?skip, exec_frame (exec_adi s n)⟩⟩
  case skip => rw [skipIf_skip_iff, carryOut_iff, exactSum_false]

/-- Settles O53: DC writes A alone (D12). -/
theorem dcAddsTenAndNeverSkips : Obligations.DcAddsTenAndNeverSkips :=
  ⟨codedAs_encode rfl, fun s => ⟨_, exec_dc s, sumNibble_toNat _, exec_frame (exec_dc s)⟩⟩

/-- ADCSK with the sum it forms named: A and C receive it, and a skip is requested on its carry. -/
theorem exec_adcsk_sum {s : State} (hskip : s.skip = false) {sum : Nat}
    (hsum : exactSum s.a (ramWord s (ramAddr s)) s.c = sum) :
    ∃ t, exec .adcsk s = .next t ∧ t.skip = carryOut sum ∧ t.a = sumNibble sum ∧ t.c = carryOut sum := by
  subst hsum
  exact ⟨_, exec_adcsk s, by rw [skipIf_skip, addMemory_skip, hskip, Bool.false_or]; rfl, rfl, rfl⟩

/-- Settles O54: after ADI 6 the sum carries out of 16 exactly when the decimal sum carries out of 10; where it does not,
DC takes the six away again. -/
theorem decimalAdditionIdiom : Obligations.DecimalAdditionIdiom := by
  intro s hskip ha hm
  have hc := Bool.toNat_le s.c
  have hadi : exec (.adi 6#4) s = .next { s with a := sumNibble (s.a.toNat + 6) } := by
    have hsix : exactSum s.a 6#4 false = s.a.toNat + 6 := rfl
    have hnoCarry : carryOut (s.a.toNat + 6) = false := decide_eq_false (by omega)
    rw [exec_adi, hsix, hnoCarry, skipIf, Bool.or_false]
  have hsum : exactSum (sumNibble (s.a.toNat + 6)) (ramWord s (ramAddr s)) s.c =
      s.a.toNat + (ramWord s (ramAddr s)).toNat + s.c.toNat + 6 := by
    rw [exactSum, sumNibble_toNat]; omega
  obtain ⟨t2, hadcsk, hskip2, ha2, hc2⟩ := exec_adcsk_sum (s := { s with a := sumNibble (s.a.toNat + 6) }) hskip hsum
  refine ⟨_, t2, _, hadi, hskip, hadcsk, exec_dc t2, ?_⟩
  rw [hskip2]
  have hmax : s.a.toNat + (ramWord s (ramAddr s)).toNat + s.c.toNat ≤ 19 := by omega
  generalize s.a.toNat + (ramWord s (ramAddr s)).toNat + s.c.toNat = decimalSum at *
  by_cases hcarry : 16 ≤ decimalSum + 6
  case pos =>
    rw [if_pos (carryOut_iff.mpr hcarry), ha2, hc2, sumNibble_toNat, carryOut_iff.mpr hcarry, Bool.toNat_true]
    omega
  case neg =>
    have hnoCarry : carryOut (decimalSum + 6) = false := decide_eq_false hcarry
    have hten : exactSum t2.a 10#4 false = decimalSum + 6 + 10 := by
      rw [exactSum_false, ha2, sumNibble_toNat, Nat.mod_eq_of_lt (by omega)]; rfl
    rw [hnoCarry, if_neg Bool.false_ne_true, hten, sumNibble_toNat, hc2, hnoCarry, Bool.toNat_false]
    omega

/-- The complement of A added with a carry-in of 1 subtracts A, and carries out exactly when nothing is borrowed. -/
theorem sum_complement (a m : Nibble) : sumNibble (exactSum (~~~a) m true) = m - a ∧
    (carryOut (exactSum (~~~a) m true) = true ↔ a.toNat ≤ m.toNat) := by
  revert a m; decide

/-- Settles O55: SC and COMP prepare the carry-in and the complement, and change no RAM. -/
theorem subtractionIdiom : Obligations.SubtractionIdiom := by
  intro s
  obtain ⟨hdifference, hborrow⟩ := sum_complement s.a (ramWord s (ramAddr s))
  exact ⟨_, _, _, exec_sc s, exec_comp _, exec_adc _, hdifference, hborrow⟩

end Sys2Proof
end

section
/-! SUPPORT. Input and output (spec/44_input_output.md R180 to R184), and the conditional skips
(spec/45_skip_and_flags.md R191 to R195). -/

namespace Sys2Proof
open Sys2Proof.Machine

/-- A free value is drawn exactly when the run fixes none. -/
theorem draws_of_isEmpty (vs : List Nibble) : (if vs.isEmpty then 1 else 0) = if vs = [] then 1 else 0 := by
  cases vs <;> rfl

/-- Settles O56: each group loses its next sample, which goes to A and into the event. -/
theorem discreteInputsLoadA : Obligations.DiscreteInputsLoadA := by
  refine ⟨codedAs_encode rfl, codedAs_encode rfl, fun s => ⟨?dia, ?dib⟩⟩
  case dia =>
    exact ⟨_, exec_dia s, rfl, rfl, rfl, rfl, rfl, congrArg (s.draws + ·) (draws_of_isEmpty _), exec_frame (exec_dia s)⟩
  case dib =>
    exact ⟨_, exec_dib s, rfl, rfl, rfl, rfl, rfl, congrArg (s.draws + ·) (draws_of_isEmpty _), exec_frame (exec_dib s)⟩

/-- Settles O57: DOA is one output of A. -/
theorem doaLoadsTheOutputRegister : Obligations.DoaLoadsTheOutputRegister :=
  ⟨codedAs_encode rfl, fun s => ⟨_, exec_doa s, rfl, rfl, exec_frame (exec_doa s)⟩⟩

/-- Settles O58: both directions of the transaction are complemented. -/
theorem iolExchangesAWithTheDeviceInverted : Obligations.IolExchangesAWithTheDeviceInverted := by
  intro cmd
  exact ⟨codedAs_encode rfl, fun s => ⟨_, ~~~s.a, busReply cmd (~~~s.a) s, exec_iol s cmd, BitVec.toNat_not,
    BitVec.toNat_not, rfl, rfl, rfl, rfl, rfl, congrArg (s.draws + ·) (draws_of_isEmpty _),
    exec_frame (exec_iol s cmd)⟩⟩

theorem skbi_word (n : Nibble) : BitVec.ofNat 8 (0x40 + n.toNat) = 0b0100#4 ++ n := by revert n; decide

/-- Settles O59: each of the five requests a skip on its condition and does nothing else. -/
theorem conditionalSkips : Obligations.ConditionalSkips := by
  refine ⟨codedAs_encode rfl, codedAs_encode rfl, codedAs_encode rfl, codedAs_encode rfl, fun n => ?coded,
    fun s => ⟨?skz, ?skf2, ?skf1, ?skc, fun n => ?skbi⟩⟩
  case coded => rw [skbi_word]; exact codedAs_encode rfl
  case skz => exact ⟨_, exec_skz s, by rw [skipIf_skip_iff, nibble_beq_iff]; rfl, exec_frame (exec_skz s)⟩
  case skf2 => exact ⟨_, exec_skf2 s, skipIf_skip_iff s.ff2 s, exec_frame (exec_skf2 s)⟩
  case skf1 => exact ⟨_, exec_skf1 s, skipIf_skip_iff s.ff1 s, exec_frame (exec_skf1 s)⟩
  case skc => exact ⟨_, exec_skc s, skipIf_skip_iff s.c s, exec_frame (exec_skc s)⟩
  case skbi =>
    exact ⟨_, exec_skbi s n, by rw [skipIf_skip_iff, nibble_beq_iff, bl_toNat], exec_frame (exec_skbi s n)⟩

end Sys2Proof
end
